-- ==== Sys2Proof/Machine/Arith.lean ====
section
/-! DEFINITION. The notation of R13 to R15 for unsigned values: slices, composite halves and arithmetic modulo a
power of two. Every value is a natural number; nothing reads a bit as a sign (R15). -/

namespace Sys2Proof.Machine

/-- `v[lo+len-1 : lo]`, read as an unsigned integer (R13). -/
def slice (v lo len : Nat) : Nat := v / 2 ^ lo % 2 ^ len

/-- `lo_M(v)` for M = 2h (R14). -/
def loHalf (h v : Nat) : Nat := slice v 0 h

/-- `hi_M(v)` for M = 2h (R14). -/
def hiHalf (h v : Nat) : Nat := slice v h h

/-- `concat(hi, lo)` of two h-bit values (R14). -/
def concatHalves (h hi lo : Nat) : Nat := hi * 2 ^ h + lo

/-- `a +_m b` (R15). -/
def addMod (m a b : Nat) : Nat := (a + b) % 2 ^ m

/-- `a -_m b`: the difference of integers, modulo 2^m, never negative (R15). -/
def subMod (m a b : Nat) : Nat := (((a : Int) - (b : Int)) % (2 ^ m : Nat)).toNat

/-- `a *_m b` (R15). -/
def mulMod (m a b : Nat) : Nat := (a * b) % 2 ^ m

end Sys2Proof.Machine
end

