-- ==== Sys2Proof/Word.lean ====
section
/-! DEFINITION. The two sizes every other file speaks of: the 32-bit word and the 4-bit register number. -/

namespace Sys2Proof

/-- A command word (R55) or the contents of a status register (R26). -/
abbrev Word := BitVec 32

/-- A register number, `r0` to `r15` (R12, R18, R57). -/
abbrev RegNum := Fin 16

end Sys2Proof
end

