-- ==== Sys2Proof/Syntax.lean ====
section
/-! DEFINITION. The five commands (R58), one constructor per row of spec/opcode_table.json. -/

namespace Sys2Proof

/-- A command. Operands stand in the order of R61: destinations first. -/
inductive Instr where
  /-- ADD (R67). -/
  | add (rd rs1 rs2 : RegNum)
  /-- SUB (R72): `rs1` is the minuend. -/
  | sub (rd rs1 rs2 : RegNum)
  /-- MUL (R76). -/
  | mul (rd rs1 rs2 : RegNum)
  /-- MULX (R77): `rd` takes the low half, `rd2` the high half. -/
  | mulx (rd rd2 rs1 rs2 : RegNum)
  /-- DIVMOD (R85): `rd` takes the quotient, `rd2` the remainder. -/
  | divmod (rd rd2 rs1 rs2 : RegNum)
deriving DecidableEq, Repr

end Sys2Proof
end

