-- ==== Sys2Proof/WellFormed.lean ====
section
/-! DEFINITION. Which terms of `Instr` have a legal word: clause 4 of R59 is the only condition that the
syntax itself does not already say. -/

namespace Sys2Proof

/-- The two destinations of MULX and DIVMOD differ (R59 clause 4, R77, R85). -/
def Instr.wellFormed : Instr → Bool
  | .add _ _ _ => true
  | .sub _ _ _ => true
  | .mul _ _ _ => true
  | .mulx rd rd2 _ _ => rd != rd2
  | .divmod rd rd2 _ _ => rd != rd2

end Sys2Proof
end

