-- ==== Sys2Proof/Decode.lean ====
section
/-! DEFINITION. The command word: the fields of format R4 (R56), the decoder (R61) and the encoder, both from
the opcode map of R58. A word is taken as a whole 32-bit value, so no byte order enters (R43, R45). -/

namespace Sys2Proof

/-! ### The fields of format R4 (R56) -/

/-- OP, bits 31:28. -/
def opField (w : Word) : BitVec 4 := w.extractLsb' 28 4

/-- RD, bits 27:24. -/
def rdField (w : Word) : BitVec 4 := w.extractLsb' 24 4

/-- RS1, bits 23:20. -/
def rs1Field (w : Word) : BitVec 4 := w.extractLsb' 20 4

/-- RS2, bits 19:16. -/
def rs2Field (w : Word) : BitVec 4 := w.extractLsb' 16 4

/-- RD2, bits 15:12. -/
def rd2Field (w : Word) : BitVec 4 := w.extractLsb' 12 4

/-- ZERO, bits 11:0. -/
def zeroField (w : Word) : BitVec 12 := w.extractLsb' 0 12

/-- A register field with value k names register k (R57). -/
def regOf (f : BitVec 4) : RegNum := f.toFin

/-- The field that names a register (R57). -/
def fieldOf (r : RegNum) : BitVec 4 := BitVec.ofFin r

/-! ### Decoding (R61) -/

/-- Why a word is illegal: the clauses of R59. Where several hold, the one R61 meets first is named (log 14). -/
inductive DecodeError where
  /-- Clause 1: OP is 0x0 or 0x6 to 0xF. -/
  | reservedOpcode
  /-- Clause 2: bits 11:0 are not 0. -/
  | nonzeroZeroField
  /-- Clause 3: ADD, SUB or MUL with RD2 not 0. -/
  | nonzeroRd2
  /-- Clause 4: MULX or DIVMOD with RD = RD2. -/
  | equalDestinations
deriving DecidableEq, Repr

/-- The decoder of R61, total on every word; it reads nothing but the word. -/
def decode (w : Word) : Except DecodeError Instr :=
  let rd := regOf (rdField w)
  let rs1 := regOf (rs1Field w)
  let rs2 := regOf (rs2Field w)
  let rd2 := regOf (rd2Field w)
  if zeroField w ≠ 0#12 then .error .nonzeroZeroField
  else if opField w = 0x1#4 then
    if rd2Field w ≠ 0#4 then .error .nonzeroRd2 else .ok (.add rd rs1 rs2)
  else if opField w = 0x2#4 then
    if rd2Field w ≠ 0#4 then .error .nonzeroRd2 else .ok (.sub rd rs1 rs2)
  else if opField w = 0x3#4 then
    if rd2Field w ≠ 0#4 then .error .nonzeroRd2 else .ok (.mul rd rs1 rs2)
  else if opField w = 0x4#4 then
    if rdField w = rd2Field w then .error .equalDestinations else .ok (.mulx rd rd2 rs1 rs2)
  else if opField w = 0x5#4 then
    if rdField w = rd2Field w then .error .equalDestinations else .ok (.divmod rd rd2 rs1 rs2)
  else .error .reservedOpcode

/-! ### Encoding (R56, R58) -/

/-- A word of format R4 with bits 11:0 clear (R56). -/
def packR4 (op rd rs1 rs2 rd2 : BitVec 4) : Word := op ++ rd ++ rs1 ++ rs2 ++ rd2 ++ 0#12

/-- The OP value of each command (R58). -/
def opcode : Instr → BitVec 4
  | .add _ _ _ => 0x1#4
  | .sub _ _ _ => 0x2#4
  | .mul _ _ _ => 0x3#4
  | .mulx _ _ _ _ => 0x4#4
  | .divmod _ _ _ _ => 0x5#4

/-- The word of a command. Of a term that is not well formed it is the illegal word with those fields. -/
def encode (i : Instr) : Word :=
  match i with
  | .add rd rs1 rs2 => packR4 (opcode i) (fieldOf rd) (fieldOf rs1) (fieldOf rs2) 0#4
  | .sub rd rs1 rs2 => packR4 (opcode i) (fieldOf rd) (fieldOf rs1) (fieldOf rs2) 0#4
  | .mul rd rs1 rs2 => packR4 (opcode i) (fieldOf rd) (fieldOf rs1) (fieldOf rs2) 0#4
  | .mulx rd rd2 rs1 rs2 => packR4 (opcode i) (fieldOf rd) (fieldOf rs1) (fieldOf rs2) (fieldOf rd2)
  | .divmod rd rd2 rs1 rs2 => packR4 (opcode i) (fieldOf rd) (fieldOf rs1) (fieldOf rs2) (fieldOf rd2)

/-! ### The host's view of the opcode table -/

/-- The word whose low `nbits` bits are those of `w`, numbered as spec/opcode_table.json numbers them (bit 0 the
least significant bit of the command word, R13), every other bit 0 (log 10). -/
def tableWord (nbits w : Nat) : Word := BitVec.ofNat 32 (w % 2 ^ nbits)

/-- The command the decoder reads from that word, none where it refuses. -/
def decodeTableWord (nbits w : Nat) : Option Instr :=
  match decode (tableWord nbits w) with
  | .ok i => some i
  | .error _ => none

end Sys2Proof
end

