-- ==== Sys2Proof/Config.lean ====
section
/-! DEFINITION. The parameters of an instance (00_scope.md section 4), the legal ones only, and the one
value the spec leaves unspecified. -/

namespace Sys2Proof

/-- The native widths of the source, 8, 16, 32 and 64 bits: the legal values of W_LEAF (R7) and DIV_W (R11). -/
inductive NativeWidth where
  | w8
  | w16
  | w32
  | w64
deriving DecidableEq, Repr

namespace NativeWidth

/-- log2 of the width, as CONFIG reports it (R31). -/
def log2 : NativeWidth → Nat
  | w8 => 3
  | w16 => 4
  | w32 => 5
  | w64 => 6

/-- The width in bits. -/
def bits (w : NativeWidth) : Nat := 2 ^ w.log2

end NativeWidth

/-- MUL_LAYOUT (R10). -/
inductive MulLayout where
  | production
  | test
deriving DecidableEq, Repr

/-- NATIVE_MAX, the largest native width (R9). -/
def nativeMax : Nat := 64

/-- NREG, the number of registers (R12). -/
def nreg : Nat := 16

/-- What the rules ask of the parameters: at least one composite level and a register width CONFIG can
report (R8), no test layout over 8-bit leaves (R10), DIVMOD no wider than a register (R11). `depth` is K. -/
abbrev LegalParams (wLeaf : NativeWidth) (depth : Nat) (mulLayout : MulLayout) (divW : NativeWidth) : Prop :=
  1 ≤ depth ∧ wLeaf.log2 + depth ≤ 255 ∧ (mulLayout = .test → wLeaf ≠ .w8) ∧ divW.log2 ≤ wLeaf.log2 + depth

/-- The parameters of one instance. An illegal combination cannot be built (U19 of 93). -/
structure Config where
  /-- W_LEAF (R7). -/
  wLeaf : NativeWidth
  /-- K, the depth of the composite tree (R8, R19). -/
  depth : Nat
  /-- MUL_LAYOUT (R10). -/
  mulLayout : MulLayout
  /-- DIV_W (R11). -/
  divW : NativeWidth
  legal : LegalParams wLeaf depth mulLayout divW
deriving DecidableEq, Repr

namespace Config

/-- log2 of N, as CONFIG reports it (R31). -/
def log2N (c : Config) : Nat := c.wLeaf.log2 + c.depth

/-- N, the width of a register: W_LEAF * 2^K (R8). -/
def n (c : Config) : Nat := c.wLeaf.bits * 2 ^ c.depth

/-- The instance of these parameters, none where the combination is not a legal instance (R10, U19 of 93). -/
def ofParams? (wLeaf : NativeWidth) (depth : Nat) (mulLayout : MulLayout) (divW : NativeWidth) : Option Config :=
  if h : LegalParams wLeaf depth mulLayout divW then some ⟨wLeaf, depth, mulLayout, divW, h⟩ else none

/-- The default instance: W_LEAF 64, N 256, production, DIV_W 64 (R7, R8, R10, R11). -/
def default : Config := ⟨.w64, 2, .production, .w64, by decide⟩

/-- FREE VALUE (log 3). The value that register `r` holds after the `k`-th reset input, which R22 and R107 leave
unspecified. No body: nothing can be proved of it, so a statement holds whatever the hardware's contents are. -/
opaque unspecifiedReg (k r : Nat) : Nat

end Config

end Sys2Proof
end

