-- ==== Sys2Proof/Machine/State.lean ====
section
/-! DEFINITION. The state of the block (R36), the inputs and outputs of its ports, the reasons a run can stop,
and the state right after reset. -/

namespace Sys2Proof.Machine

/-- Why a run stops. The hardware itself never stops: ILLEGAL_COMMAND and DIVIDE_BY_ZERO are taken (R95) and end in
a next state. -/
inductive Fault where
  /-- UNWRITTEN_READ, the fault of the spec's model (R93, R40). Raised by `Safety`'s `checkedStep` alone, never by
  `step`: the hardware raises nothing there and goes on (log 4). SAFE: it stops where the hardware goes on. -/
  | unwrittenRead
deriving DecidableEq, Repr

/-- Why the model gives no meaning. -/
inductive Refusal where
  /-- An instruction without a meaning yet, raised by an arm of `exec` alone. No arm raises it: every command of the
  opcode table has its meaning. SAFE. -/
  | notModelled (mnemonic : String)
deriving DecidableEq, Repr

/-- One thing the host does at the block's ports, in the one total order of R49. Each takes one step. -/
inductive Event where
  /-- A 32-bit word presented on the command port (R54). -/
  | command (w : Word)
  /-- HostWriteReg (R39); an N-bit value, see log 8. -/
  | hostWriteReg (r : RegNum) (v : Nat)
  /-- HostReadReg (R40). -/
  | hostReadReg (r : RegNum)
  /-- HostReadCsr (R41). -/
  | hostReadCsr (a : BitVec 8)
  /-- The reset input (R107). -/
  | reset
deriving DecidableEq, Repr

/-- What the host port returns. -/
inductive Response where
  /-- HostReadReg returns x[r] (R40). -/
  | regValue (r : RegNum) (v : Nat)
  /-- HostReadCsr returns csr[a] (R41). -/
  | csrValue (a : BitVec 8) (v : Word)
deriving DecidableEq, Repr

/-- The state: the components of R36, then the model's own fields (INVENTORY.md, State). -/
structure State where
  /-- The instance's parameters. No step changes them (log 1). -/
  cfg : Config
  /-- The register file, N bits each (R18, R20). -/
  regs : Vector (BitVec cfg.n) 16
  /-- The written marks (R21). -/
  written : Vector Bool 16
  /-- CI, the command index (R23). -/
  ci : Word
  /-- STATUS.FAULTED (R27). -/
  faulted : Bool
  /-- STATUS.CAUSE (R27). -/
  cause : BitVec 4
  /-- FAULT_CI (R29). -/
  faultCi : Word
  /-- FAULT_CMD (R30). -/
  faultCmd : Word
  /-- What the host does next, oldest first (log 5). -/
  inputs : List Event
  /-- What the host port has returned, newest first (log 7). -/
  returned : List Response
  /-- How many reset inputs were taken: it names the next free register contents (log 3). -/
  resets : Nat
deriving DecidableEq, Repr

/-- Every architected component but the register contents at its reset value (R36, R107). -/
def State.atReset (cfg : Config) (contents : Vector (BitVec cfg.n) 16) (inputs : List Event)
    (returned : List Response) (resets : Nat) : State :=
  { cfg := cfg, regs := contents, written := Vector.replicate 16 false, ci := 0, faulted := false, cause := 0,
    faultCi := 0, faultCmd := 0, inputs := inputs, returned := returned, resets := resets }

/-- An instance right after power-on reset, with nothing presented yet. DESIGN CHOICE (log 2): the registers hold 0,
for which the spec gives no value (R22). -/
def State.resetFor (cfg : Config) : State := State.atReset cfg (Vector.replicate 16 0) [] [] 0

/-- The default instance right after reset. -/
def State.reset : State := State.resetFor Config.default

end Sys2Proof.Machine
end

