-- ==== Sys2Proof/Machine/Ops.lean ====
section
/-! DEFINITION. The operations every meaning is built from: reading and writing a register, completing a command,
raising an exception, and reset. -/

namespace Sys2Proof.Machine

/-- `x[r]` as an unsigned integer (R16, R20). -/
def State.x (s : State) (r : RegNum) : Nat := s.regs[r].toNat

/-- The written mark of r (R21). -/
def State.mark (s : State) (r : RegNum) : Bool := s.written[r]

/-- `x[r] <- v`: r takes the low N bits of v, whole, and its written mark is set (R16, R21, R44). -/
def State.writeReg (s : State) (r : RegNum) (v : Nat) : State :=
  { s with regs := s.regs.set r (BitVec.ofNat s.cfg.n v), written := s.written.set r true }

/-- `ci <- ci + 1` modulo 2^32, as a command completes (R16, R23, R24). -/
def State.advanceCi (s : State) : State := { s with ci := s.ci + 1 }

/-- The two exceptions of the block (R89). -/
inductive Exn where
  | illegalCommand
  | divideByZero
deriving DecidableEq, Repr

/-- The CAUSE codes (R27, R89). -/
def causeCode : Exn → BitVec 4
  | .illegalCommand => 1
  | .divideByZero => 2

/-- Fault entry (R95): the latch, the cause, the index and the word; no register is written and CI keeps its value.
There is no return from it but reset (R97). -/
def State.raise (s : State) (e : Exn) (w : Word) : State :=
  { s with faulted := true, cause := causeCode e, faultCi := s.ci, faultCmd := w }

/-- The reset input (R107): every component at its reset value; the register contents become unspecified, a free
value (log 3). CONFIG and the parameters stay; what the host has yet to do and has read is not the block's. -/
def State.takeReset (s : State) : State :=
  State.atReset s.cfg (Vector.ofFn fun r => BitVec.ofNat s.cfg.n (Config.unspecifiedReg s.resets r.val))
    s.inputs s.returned (s.resets + 1)

end Sys2Proof.Machine
end

