-- ==== Sys2Proof/Machine/Operands.lean ====
section
/-! DEFINITION. The operand forms. Every operand is a register (R57), read whole (R44) but for DIVMOD, which reads the
low DIV_W bits (R86). All sources are read from the state in which the command began (R63). -/

namespace Sys2Proof.Machine

/-- A whole register as a source (R44). -/
def State.source (s : State) (r : RegNum) : Nat := s.x r

/-- The low DIV_W bits of a register as a source: `x[r][DIV_W-1:0]` (R85, R86). -/
def State.nativeSource (s : State) (r : RegNum) : Nat := slice (s.x r) 0 s.cfg.divW.bits

/-- The source registers a command reads (R58). -/
def sources : Instr → List RegNum
  | .add _ rs1 rs2 => [rs1, rs2]
  | .sub _ rs1 rs2 => [rs1, rs2]
  | .mul _ rs1 rs2 => [rs1, rs2]
  | .mulx _ _ rs1 rs2 => [rs1, rs2]
  | .divmod _ _ rs1 rs2 => [rs1, rs2]

/-- The destination registers a command writes (R58). -/
def destinations : Instr → List RegNum
  | .add rd _ _ => [rd]
  | .sub rd _ _ => [rd]
  | .mul rd _ _ => [rd]
  | .mulx rd rd2 _ _ => [rd, rd2]
  | .divmod rd rd2 _ _ => [rd, rd2]

/-- Complete a command with one destination: write it, then count the command (R62). -/
def State.completeOne (s : State) (rd : RegNum) (v : Nat) : State := (s.writeReg rd v).advanceCi

/-- Complete a command with two destinations: write both, then count the command (R62, R63). -/
def State.completeTwo (s : State) (rd : RegNum) (v : Nat) (rd2 : RegNum) (v2 : Nat) : State :=
  ((s.writeReg rd v).writeReg rd2 v2).advanceCi

end Sys2Proof.Machine
end

