-- ==== Sys2Proof/Machine/AddSub.lean ====
section
/-! DEFINITION. ADD (R67) and SUB (R72). -/

namespace Sys2Proof.Machine

/-- ADD (R67): `x[rd] <- a +_N b`. The carry out of bit N-1 is discarded (R25, R70). -/
def execAdd (rd rs1 rs2 : RegNum) (s : State) : Host.Outcome State Fault Refusal :=
  .next (s.completeOne rd (addMod s.cfg.n (s.source rs1) (s.source rs2)))

/-- SUB (R72): `x[rd] <- a -_N b`, rs1 the minuend. The borrow out of bit N-1 is discarded (R25). -/
def execSub (rd rs1 rs2 : RegNum) (s : State) : Host.Outcome State Fault Refusal :=
  .next (s.completeOne rd (subMod s.cfg.n (s.source rs1) (s.source rs2)))

end Sys2Proof.Machine
end

