-- ==== Sys2Proof/Machine/DivMod.lean ====
section
/-! DEFINITION. DIVMOD (R85, R86, R87). -/

namespace Sys2Proof.Machine

/-- DIVMOD (R85): quotient and remainder of the low DIV_W bits, zero-extended to N bits. A divisor whose low DIV_W
bits are 0 raises DIVIDE_BY_ZERO (R87); FAULT_CMD takes the command's word (R95). A term with rd = rd2 has an illegal
word, which raises ILLEGAL_COMMAND before any source is read (R59 clause 4, R94, log 9). -/
def execDivmod (rd rd2 rs1 rs2 : RegNum) (s : State) : Host.Outcome State Fault Refusal :=
  let w := encode (.divmod rd rd2 rs1 rs2)
  let a := s.nativeSource rs1
  let b := s.nativeSource rs2
  if rd = rd2 then .next (s.raise .illegalCommand w)
  else if b = 0 then .next (s.raise .divideByZero w)
  else .next (s.completeTwo rd (a / b) rd2 (a % b))

end Sys2Proof.Machine
end

