-- ==== Sys2Proof/Machine/Multiply.lean ====
section
/-! DEFINITION. MUL (R76) and MULX (R77). The result is exact arithmetic; the multiplier's inside is not visible
(R78). -/

namespace Sys2Proof.Machine

/-- MUL (R76): `x[rd] <- a *_N b`. -/
def execMul (rd rs1 rs2 : RegNum) (s : State) : Host.Outcome State Fault Refusal :=
  .next (s.completeOne rd (mulMod s.cfg.n (s.source rs1) (s.source rs2)))

/-- MULX (R77): rd takes bits N-1:0 of the exact product, rd2 bits 2N-1:N. A term with rd = rd2 has an illegal word,
which raises ILLEGAL_COMMAND (R59 clause 4, log 9). -/
def execMulx (rd rd2 rs1 rs2 : RegNum) (s : State) : Host.Outcome State Fault Refusal :=
  let p := s.source rs1 * s.source rs2
  if rd = rd2 then .next (s.raise .illegalCommand (encode (.mulx rd rd2 rs1 rs2)))
  else .next (s.completeTwo rd (slice p 0 s.cfg.n) rd2 (slice p s.cfg.n s.cfg.n))

end Sys2Proof.Machine
end

