-- ==== Sys2Proof/Machine/Status.lean ====
section
/-! DEFINITION. The status registers as the host reads them, and the output signal (R26 to R33). -/

namespace Sys2Proof.Machine

/-- STATUS (R27): CAUSE in bits 7:4, FAULTED in bit 0, every other bit 0. -/
def State.status (s : State) : Word := 0#24 ++ s.cause ++ 0#3 ++ BitVec.ofBool s.faulted

/-- The MUL_LAYOUT bit of CONFIG (R31). -/
def layoutBit : MulLayout → BitVec 1
  | .production => 0
  | .test => 1

/-- CONFIG (R31): from bit 0 up, LOG2_W_LEAF, LOG2_N, LOG2_DIV_W, NREG, MUL_LAYOUT. -/
def configWord (c : Config) : Word :=
  0#10 ++ layoutBit c.mulLayout ++ BitVec.ofNat 5 nreg ++ BitVec.ofNat 4 c.divW.log2 ++ BitVec.ofNat 8 c.log2N
    ++ BitVec.ofNat 4 c.wLeaf.log2

/-- `csr[a]` (R26): the five status registers; every other address reads 0 (R32). -/
def State.csr (s : State) (a : BitVec 8) : Word :=
  if a = 0x00#8 then s.status
  else if a = 0x01#8 then s.ci
  else if a = 0x02#8 then s.faultCi
  else if a = 0x03#8 then s.faultCmd
  else if a = 0x04#8 then configWord s.cfg
  else 0

/-- FAULT_OUT, a level equal to STATUS.FAULTED (R33). -/
def State.faultOut (s : State) : Bool := s.faulted

end Sys2Proof.Machine
end

