-- ==== Sys2Proof/Machine/HostPort.lean ====
section
/-! DEFINITION. The three operations of the host port (R39, R40, R41). They work in every state, faulted or not. -/

namespace Sys2Proof.Machine

/-- HostWriteReg (R39): the register takes the N-bit value and its mark is set; no status register changes. -/
def State.hostWriteReg (s : State) (r : RegNum) (v : Nat) : State := s.writeReg r v

/-- HostReadReg (R40): the host receives x[r]; nothing of the block changes. Of a register whose mark is clear it
receives the unspecified contents, as on the hardware (log 4). -/
def State.hostReadReg (s : State) (r : RegNum) : State :=
  { s with returned := .regValue r (s.x r) :: s.returned }

/-- HostReadCsr (R41): the host receives csr[a]; nothing of the block changes. -/
def State.hostReadCsr (s : State) (a : BitVec 8) : State :=
  { s with returned := .csrValue a (s.csr a) :: s.returned }

end Sys2Proof.Machine
end

