-- ==== Sys2Proof/Machine/CommandPort.lean ====
section
/-! DEFINITION. What the block does with one presented word (R62) and with one host input (R42, R49). -/

namespace Sys2Proof.Machine

/-- The block takes a presented word (R62, R94): discarded while faulted (R96), an illegal word raises
ILLEGAL_COMMAND (R90), a command runs. -/
def takeCommand (w : Word) (s : State) : Host.Outcome State Fault Refusal :=
  if s.faulted then .next s
  else match decode w with
    | .ok i => exec i s
    | .error _ => .next (s.raise .illegalCommand w)

/-- One input of the total order takes effect, whole (R49, R111). -/
def takeEvent (e : Event) (s : State) : Host.Outcome State Fault Refusal :=
  match e with
  | .command w => takeCommand w s
  | .hostWriteReg r v => .next (s.hostWriteReg r v)
  | .hostReadReg r => .next (s.hostReadReg r)
  | .hostReadCsr a => .next (s.hostReadCsr a)
  | .reset => .next s.takeReset

/-- The input in front taken off the list: what the host does after it. -/
def State.withInputs (s : State) (es : List Event) : State := { s with inputs := es }

end Sys2Proof.Machine
end

