-- ==== Sys2Proof/Machine/Step.lean ====
section
/-! DEFINITION. One step of the machine, and how the host places a command in front of it. -/

namespace Sys2Proof.Machine

/-- One step: the next input, in the order the host issued them (R49, R54). With nothing presented the block is idle
and keeps all its state (R106, log 6). -/
def step (s : State) : Host.Outcome State Fault Refusal :=
  match s.inputs with
  | [] => .next s
  | e :: es => takeEvent e (s.withInputs es)

/-- The word presented next on the command port, before everything else the host does (R54, log 10). -/
def State.withFetchWord (s : State) (nbits w : Nat) : State :=
  s.withInputs (.command (tableWord nbits w) :: s.inputs)

end Sys2Proof.Machine
end

