-- ==== Sys2Proof/Machine/Assembler.lean ====
section
/-! DEFINITION. The assembler of R65 and R66: from one line of text, a list of characters, to its command word. It is
a tool beside the block; no step uses it. What R65 leaves open of the text is log 12. -/

namespace Sys2Proof.Machine

/-! ### Statements -/

/-- A line's statement: the five commands and `.word` (R65), and the pseudo-instructions (R66). -/
inductive AsmStmt where
  | add (rD rS1 rS2 : RegNum)
  | sub (rD rS1 rS2 : RegNum)
  | mul (rD rS1 rS2 : RegNum)
  | mulx (rLo rHi rS1 rS2 : RegNum)
  | divmod (rQ rR rS1 rS2 : RegNum)
  | word (w : Word)
  /-- `add rD, rS`. -/
  | addInPlace (rD rS : RegNum)
  /-- `sub rD, rS`. -/
  | subInPlace (rD rS : RegNum)
  /-- `mul rD, rS`. -/
  | mulInPlace (rD rS : RegNum)
  | dbl (rD rS : RegNum)
  | sqr (rD rS : RegNum)
  | sqrx (rLo rHi rS : RegNum)
  | clr (rD : RegNum)
deriving DecidableEq, Repr

/-- Why a line is refused. -/
inductive AsmError where
  | unknownMnemonic
  | operandCount
  | badRegister
  | badNumber
  /-- `mulx`, `divmod` or `sqrx` with its two destinations equal (R65, U18 of 93). -/
  | equalDestinations
deriving DecidableEq, Repr

/-- What a statement stands for: a command (R65), its expansion (R66), or a raw word. -/
def AsmStmt.expand : AsmStmt → Instr ⊕ Word
  | .add rD rS1 rS2 => .inl (.add rD rS1 rS2)
  | .sub rD rS1 rS2 => .inl (.sub rD rS1 rS2)
  | .mul rD rS1 rS2 => .inl (.mul rD rS1 rS2)
  | .mulx rLo rHi rS1 rS2 => .inl (.mulx rLo rHi rS1 rS2)
  | .divmod rQ rR rS1 rS2 => .inl (.divmod rQ rR rS1 rS2)
  | .word w => .inr w
  | .addInPlace rD rS => .inl (.add rD rD rS)
  | .subInPlace rD rS => .inl (.sub rD rD rS)
  | .mulInPlace rD rS => .inl (.mul rD rD rS)
  | .dbl rD rS => .inl (.add rD rS rS)
  | .sqr rD rS => .inl (.mul rD rS rS)
  | .sqrx rLo rHi rS => .inl (.mulx rLo rHi rS rS)
  | .clr rD => .inl (.sub rD rD rD)

/-- The word of a statement. A command whose word would be illegal is refused; `.word` is taken as it stands (R65). -/
def AsmStmt.assemble (a : AsmStmt) : Except AsmError Word :=
  match a.expand with
  | .inl i => if i.wellFormed then .ok (encode i) else .error .equalDestinations
  | .inr w => .ok w

/-! ### Text -/

/-- White space inside a line (log 12). -/
def isBlank (c : Char) : Bool := c == ' ' || c == '\t'

/-- A token without the white space around it. -/
def trim (cs : List Char) : List Char := ((cs.dropWhile isBlank).reverse.dropWhile isBlank).reverse

/-- The operands of a line: its text cut at the commas. -/
def splitCommas : List Char → List (List Char)
  | [] => [[]]
  | c :: cs =>
    match splitCommas cs with
    | [] => [[c]]
    | t :: ts => if c == ',' then [] :: t :: ts else (c :: t) :: ts

/-- The register names, in the order of their numbers (R65). -/
def regNames : List (List Char) :=
  [['r', '0'], ['r', '1'], ['r', '2'], ['r', '3'], ['r', '4'], ['r', '5'], ['r', '6'], ['r', '7'],
   ['r', '8'], ['r', '9'], ['r', '1', '0'], ['r', '1', '1'], ['r', '1', '2'], ['r', '1', '3'], ['r', '1', '4'],
   ['r', '1', '5']]

/-- A register operand. -/
def parseReg (t : List Char) : Except AsmError RegNum :=
  if h : regNames.idxOf t < 16 then .ok ⟨regNames.idxOf t, h⟩ else .error .badRegister

/-- The value of a digit in a base up to 16, letters of either case (log 12). -/
def digitValue (base : Nat) (c : Char) : Option Nat :=
  let n := c.toNat
  let v :=
    if 48 ≤ n ∧ n ≤ 57 then n - 48
    else if 97 ≤ n ∧ n ≤ 102 then n - 87
    else if 65 ≤ n ∧ n ≤ 70 then n - 55
    else base
  if v < base then some v else none

/-- The value of a digit string in a base, after the value `acc` of the digits before it. -/
def digitsValue (base : Nat) : Nat → List Char → Option Nat
  | acc, [] => some acc
  | acc, c :: cs =>
    match digitValue base c with
    | some v => digitsValue base (acc * base + v) cs
    | none => none

/-- A number: hexadecimal with `0x`, or decimal (R65); of 32 bits, for `.word`. -/
def parseWord (t : List Char) : Except AsmError Word :=
  let value :=
    match t with
    | [] => none
    | ['0', 'x'] => none
    | '0' :: 'x' :: ds => digitsValue 16 0 ds
    | ds => digitsValue 10 0 ds
  match value with
  | some v => if v < 2 ^ 32 then .ok (BitVec.ofNat 32 v) else .error .badNumber
  | none => .error .badNumber

/-- The registers of a list of operands. -/
def parseRegs : List (List Char) → Except AsmError (List RegNum)
  | [] => .ok []
  | t :: ts =>
    match parseReg t, parseRegs ts with
    | .ok r, .ok rs => .ok (r :: rs)
    | .error e, _ => .error e
    | .ok _, .error e => .error e

/-- The forms of each mnemonic, by its number of operands (R65, R66). -/
def stmtOf (m : List Char) (rs : List RegNum) : Except AsmError AsmStmt :=
  if m = ['a', 'd', 'd'] then
    match rs with
    | [rD, rS1, rS2] => .ok (.add rD rS1 rS2)
    | [rD, rS] => .ok (.addInPlace rD rS)
    | _ => .error .operandCount
  else if m = ['s', 'u', 'b'] then
    match rs with
    | [rD, rS1, rS2] => .ok (.sub rD rS1 rS2)
    | [rD, rS] => .ok (.subInPlace rD rS)
    | _ => .error .operandCount
  else if m = ['m', 'u', 'l'] then
    match rs with
    | [rD, rS1, rS2] => .ok (.mul rD rS1 rS2)
    | [rD, rS] => .ok (.mulInPlace rD rS)
    | _ => .error .operandCount
  else if m = ['m', 'u', 'l', 'x'] then
    match rs with
    | [rLo, rHi, rS1, rS2] => .ok (.mulx rLo rHi rS1 rS2)
    | _ => .error .operandCount
  else if m = ['d', 'i', 'v', 'm', 'o', 'd'] then
    match rs with
    | [rQ, rR, rS1, rS2] => .ok (.divmod rQ rR rS1 rS2)
    | _ => .error .operandCount
  else if m = ['d', 'b', 'l'] then
    match rs with
    | [rD, rS] => .ok (.dbl rD rS)
    | _ => .error .operandCount
  else if m = ['s', 'q', 'r'] then
    match rs with
    | [rD, rS] => .ok (.sqr rD rS)
    | _ => .error .operandCount
  else if m = ['s', 'q', 'r', 'x'] then
    match rs with
    | [rLo, rHi, rS] => .ok (.sqrx rLo rHi rS)
    | _ => .error .operandCount
  else if m = ['c', 'l', 'r'] then
    match rs with
    | [rD] => .ok (.clr rD)
    | _ => .error .operandCount
  else .error .unknownMnemonic

/-- The statement of a line without its comment and the white space around it. -/
def parseStmt (line : List Char) : Except AsmError AsmStmt :=
  let m := line.takeWhile fun c => !isBlank c
  let rest := trim (line.dropWhile fun c => !isBlank c)
  if m = ['.', 'w', 'o', 'r', 'd'] then
    match parseWord rest with
    | .ok w => .ok (.word w)
    | .error e => .error e
  else
    match parseRegs ((splitCommas rest).map trim) with
    | .ok rs => stmtOf m rs
    | .error e => .error e

/-- One line of text: its word, nothing for a line that is blank but for a comment (R65), or why it is refused. -/
def assembleLine (line : List Char) : Except AsmError (Option Word) :=
  let text := trim (line.takeWhile fun c => c != ';')
  if text = [] then .ok none
  else
    match parseStmt text with
    | .ok a =>
      match a.assemble with
      | .ok w => .ok (some w)
      | .error e => .error e
    | .error e => .error e

end Sys2Proof.Machine
end

