-- ==== Sys2Proof/Machine/Flags.lean ====
section
/-! DEFINITION. The block has no flag register (R25). What the spec computes in a flag's place are the carry and the
borrow between the halves of a composite, found by comparison (R69, R74); they live inside one command and no
register of State holds them. -/

namespace Sys2Proof.Machine

/-- The carry out of `u +_m v`, detected as `s < u` on the wrapped sum `s` (R69). -/
def carryOf (s u : Nat) : Nat := if s < u then 1 else 0

/-- The borrow out of `u -_m v`, detected as `d > u` on the wrapped difference `d` (R74). -/
def borrowOf (d u : Nat) : Nat := if u < d then 1 else 0

end Sys2Proof.Machine
end

