-- ==== Sys2Proof/Machine/Composite.lean ====
section
/-! DEFINITION. The composite view of a value (R14, R19) and the source's recursive algorithms over it: addition
(R68), subtraction (R73) and the multiplications (R79, R80, R82). The commands do not call them: R78 makes the
inside of the block invisible, and the statements say that these algorithms give the commands' results.

A value of depth `k` over leaves of `w` bits has `w * 2^k` bits; its halves have depth `k - 1`. -/

namespace Sys2Proof.Machine

/-- The width of a composite of depth `k` over `w`-bit leaves (R8, R19). -/
def widthAt (w k : Nat) : Nat := w * 2 ^ k

/-! ### The tree of a value (R19) -/

/-- A DoubleWidth composite: a leaf, or a high and a low part of equal depth (R17, R19). -/
inductive Composite where
  | leaf (v : Nat)
  | pair (hi lo : Composite)
deriving DecidableEq, Repr

/-- The tree of depth `k` that a value holds (R19). -/
def Composite.ofValue (w : Nat) : Nat → Nat → Composite
  | 0, v => .leaf (slice v 0 w)
  | k + 1, v => .pair (Composite.ofValue w k (hiHalf (widthAt w k) v)) (Composite.ofValue w k (loHalf (widthAt w k) v))

/-- The width of a tree over `w`-bit leaves. -/
def Composite.width (w : Nat) : Composite → Nat
  | .leaf _ => w
  | .pair hi lo => hi.width w + lo.width w

/-- The value of a tree over `w`-bit leaves, `hi * 2^bitwidth(T) + lo` at every level (R14, R19). -/
def Composite.value (w : Nat) : Composite → Nat
  | .leaf v => v
  | .pair hi lo => concatHalves (lo.width w) (hi.value w) (lo.value w)

/-- The leaves of a tree, leaf 0 (the least significant) first (R19). -/
def Composite.leaves : Composite → List Nat
  | .leaf v => [v]
  | .pair hi lo => lo.leaves ++ hi.leaves

/-- Leaf `i` of a value with `w`-bit leaves (R19). -/
def leafOf (w v i : Nat) : Nat := slice v (i * w) w

/-! ### Addition and subtraction -/

/-- `addc_M` (R68) at depth `k`. -/
def addc (w : Nat) : Nat → Nat → Nat → Nat
  | 0, a, b => addMod w a b
  | k + 1, a, b =>
    let h := widthAt w k
    let newLo := addc w k (loHalf h a) (loHalf h b)
    let carry := carryOf newLo (loHalf h a)
    let newHi := addc w k (addc w k (hiHalf h a) (hiHalf h b)) carry
    concatHalves h newHi newLo

/-- `subb_M` (R73) at depth `k`. -/
def subb (w : Nat) : Nat → Nat → Nat → Nat
  | 0, a, b => subMod w a b
  | k + 1, a, b =>
    let h := widthAt w k
    let newLo := subb w k (loHalf h a) (loHalf h b)
    let borrow := borrowOf newLo (loHalf h a)
    let newHi := subb w k (subb w k (hiHalf h a) (hiHalf h b)) borrow
    concatHalves h newHi newLo

/-! ### Multiplication -/

/-- The intermediates of `school_M` (R80), M = 2h. -/
structure SchoolSteps where
  z0 : Nat
  t1 : Nat
  t2 : Nat
  z1 : Nat
  c1 : Nat
  z2 : Nat
  low : Nat
  c2 : Nat
  high : Nat
deriving DecidableEq, Repr

/-- The steps of `school_M` (R80, with the corrections C1 to C4 of 90_conflicts.md), over the product `mulH` of
h-bit values. The second cross term is `lo(x) * hi(y)`; R83 rejects the doubled one. -/
def schoolSteps (mulH : Nat → Nat → Nat) (h x y : Nat) : SchoolSteps :=
  let z0 := mulH (loHalf h x) (loHalf h y)
  let t1 := mulH (hiHalf h x) (loHalf h y)
  let t2 := mulH (loHalf h x) (hiHalf h y)
  let z1 := addMod (2 * h) t1 t2
  let c1 := carryOf z1 t1
  let z2 := mulH (hiHalf h x) (hiHalf h y) + c1 * 2 ^ h
  let low := addMod (2 * h) z0 (loHalf h z1 * 2 ^ h)
  let c2 := carryOf low z0
  let high := z2 + hiHalf h z1 + c2
  ⟨z0, t1, t2, z1, c1, z2, low, c2, high⟩

/-- `school_M` (R80): the full product from four products of halves. -/
def school (mulH : Nat → Nat → Nat) (h x y : Nat) : Nat :=
  concatHalves (2 * h) (schoolSteps mulH h x y).high (schoolSteps mulH h x y).low

/-- A product of native values widened to twice their width, where nothing overflows (R79). -/
def widening (a b : Nat) : Nat := a * b

/-- `naiveMul`, the leaf product (R79): the widening fast path, or the schoolbook one level down where no native type
is wide enough or the test layout asks for it. -/
def xmulLeaf (w : NativeWidth) (layout : MulLayout) (a b : Nat) : Nat :=
  if 2 * w.bits ≤ nativeMax ∧ layout = .production then widening a b else school widening (w.bits / 2) a b

/-- `xmul_M` (R79, R80) at depth `k`: the leaf product, then the schoolbook at every composite width. -/
def xmul (w : NativeWidth) (layout : MulLayout) : Nat → Nat → Nat → Nat
  | 0, a, b => xmulLeaf w layout a b
  | k + 1, a, b => school (xmul w layout k) (widthAt w.bits k) a b

/-- `tmul_M` (R82) at depth `k`: the truncated product, without the `hi * hi` term. -/
def tmul (w : NativeWidth) (layout : MulLayout) : Nat → Nat → Nat → Nat
  | 0, a, b => slice (xmulLeaf w layout a b) 0 w.bits
  | k + 1, a, b =>
    let h := widthAt w.bits k
    let z0 := xmul w layout k (loHalf h a) (loHalf h b)
    let cross := addMod h (tmul w layout k (hiHalf h a) (loHalf h b)) (tmul w layout k (loHalf h a) (hiHalf h b))
    concatHalves h (addMod h (hiHalf h z0) cross) (loHalf h z0)

end Sys2Proof.Machine
end

