-- ==== Sys2Proof/Safety.lean ====
section
/-! DEFINITION. What counts as a safe run: the spec's model fault UNWRITTEN_READ (R93), runs over a list of inputs
and final runs (R110), and the invariant of the fault latch (R27, R29, R30, R95). -/

namespace Sys2Proof.Machine

/-! ### UNWRITTEN_READ (R93, R94, R40) -/

/-- Does this input, taken in this state, read a register whose written mark is clear? A discarded or illegal word
reads none (R94). -/
def readsUnwritten (s : State) : Event → Bool
  | .command w =>
    !s.faulted && match decode w with
      | .ok i => (sources i).any fun r => !s.mark r
      | .error _ => false
  | .hostReadReg r => !s.mark r
  | .hostWriteReg _ _ => false
  | .hostReadCsr _ => false
  | .reset => false

/-- One input in the spec's model: UNWRITTEN_READ before anything else the command could raise but ILLEGAL_COMMAND
(R93, R94); else what the hardware does. -/
def checkedEvent (e : Event) (s : State) : Host.Outcome State Fault Refusal :=
  if readsUnwritten s e then .fault .unwrittenRead else takeEvent e s

/-- One step of the spec's model, which stops on UNWRITTEN_READ where `step` goes on (log 4). -/
def checkedStep (s : State) : Host.Outcome State Fault Refusal :=
  match s.inputs with
  | [] => .next s
  | e :: es => checkedEvent e (s.withInputs es)

/-! ### Runs (R110) -/

/-- The hardware takes a list of inputs. -/
def run : List Event → State → Host.Outcome State Fault Refusal
  | [], s => .next s
  | e :: es, s =>
    match takeEvent e s with
    | .next t => run es t
    | .fault f => .fault f
    | .refused r => .refused r

/-- The spec's model takes a list of inputs, stopping at UNWRITTEN_READ (R93, R110). -/
def checkedRun : List Event → State → Host.Outcome State Fault Refusal
  | [], s => .next s
  | e :: es, s =>
    match checkedEvent e s with
    | .next t => checkedRun es t
    | .fault f => .fault f
    | .refused r => .refused r

/-- How many command words a list presents after its last reset, `k` before it (R110). -/
def commandsSinceReset : Nat → List Event → Nat
  | k, [] => k
  | k, .command _ :: es => commandsSinceReset (k + 1) es
  | k, .hostWriteReg _ _ :: es => commandsSinceReset k es
  | k, .hostReadReg _ :: es => commandsSinceReset k es
  | k, .hostReadCsr _ :: es => commandsSinceReset k es
  | _, .reset :: es => commandsSinceReset 0 es

/-- A final run (R110): from reset, the list exhausted, no UNWRITTEN_READ, not faulted, and CI the number of command
words since the last reset, modulo 2^32. -/
def FinalRun (c : Config) (es : List Event) (t : State) : Prop :=
  checkedRun es (State.resetFor c) = .next t ∧ t.faulted = false ∧ t.ci = BitVec.ofNat 32 (commandsSinceReset 0 es)

/-! ### What a command may change -/

/-- The status part of a state (R26 to R30). -/
def SameStatus (s t : State) : Prop :=
  t.ci = s.ci ∧ t.faulted = s.faulted ∧ t.cause = s.cause ∧ t.faultCi = s.faultCi ∧ t.faultCmd = s.faultCmd

/-- The register file of two states agrees, contents and marks, outside the registers `ds`. -/
def SameRegsBut (ds : List RegNum) (s t : State) : Prop :=
  ∀ r, r ∉ ds → t.x r = s.x r ∧ t.mark r = s.mark r

/-- The parameters, the inputs to come, the values returned and the count of resets agree. -/
def SameSurroundings (s t : State) : Prop :=
  t.cfg = s.cfg ∧ t.inputs = s.inputs ∧ t.returned = s.returned ∧ t.resets = s.resets

/-- `t` is `s` after a command that completed and wrote the registers `ds`: CI is one more, the marks of `ds` are set,
and nothing else than the contents of `ds` may differ (R21, R23, R25). -/
def Completed (ds : List RegNum) (s t : State) : Prop :=
  t.ci = s.ci + 1 ∧ (∀ r ∈ ds, t.mark r = true) ∧ SameRegsBut ds s t ∧
  t.faulted = s.faulted ∧ t.cause = s.cause ∧ t.faultCi = s.faultCi ∧ t.faultCmd = s.faultCmd ∧ SameSurroundings s t

/-- `t` is `s` after a fault entry and nothing else (R95): no register, no mark and not CI. -/
def Raised (code : BitVec 4) (w : Word) (s t : State) : Prop :=
  t.faulted = true ∧ t.cause = code ∧ t.faultCi = s.ci ∧ t.faultCmd = w ∧ t.ci = s.ci ∧
  SameRegsBut [] s t ∧ SameSurroundings s t

/-! ### States that software cannot tell apart -/

/-- Two states alike but for what their registers hold where no mark is set (R21). -/
def SameButUnwritten (s t : State) : Prop :=
  s.cfg = t.cfg ∧ (∀ r, s.mark r = t.mark r) ∧ (∀ r, s.mark r = true → s.x r = t.x r) ∧ SameStatus s t ∧
  s.inputs = t.inputs ∧ s.returned = t.returned ∧ s.resets = t.resets

/-- Two states of instances that may differ in W_LEAF and MUL_LAYOUT but not in N or DIV_W, alike in everything but
their parameters (R7, R10, R78). -/
def SameButLayout (s t : State) : Prop :=
  s.cfg.n = t.cfg.n ∧ s.cfg.divW = t.cfg.divW ∧ (∀ r, s.x r = t.x r ∧ s.mark r = t.mark r) ∧ SameStatus s t ∧
  s.inputs = t.inputs ∧ s.returned = t.returned ∧ s.resets = t.resets

/-! ### The invariant of the fault latch -/

/-- What the status registers say in every state a run reaches: with no fault they read 0 (R27, R29, R30); with a
fault, FAULT_CI is the CI at which the block stands still (R95, R96), CAUSE is 1 exactly for an illegal word and 2
exactly for a DIVMOD (R89). -/
def LatchInv (s : State) : Prop :=
  (s.faulted = false → s.cause = 0 ∧ s.faultCi = 0 ∧ s.faultCmd = 0) ∧
  (s.faulted = true → s.faultCi = s.ci ∧
    ((s.cause = 1 ∧ ∃ e, decode s.faultCmd = .error e) ∨
     (s.cause = 2 ∧ ∃ rd rd2 rs1 rs2, decode s.faultCmd = .ok (.divmod rd rd2 rs1 rs2))))

end Sys2Proof.Machine
end

