-- ==== Sys2Proof/Certificates/Slice0/Obligations.lean ====
section
/-! DEFINITION. The statements for the provers. Each docstring says what is stated and where the spec says it. -/

open Sys2Proof Sys2Proof.Machine

/-- For every instance, N = W_LEAF * 2^K with K at least 1, N is 2^(LOG2_N) with LOG2_N from 4 to 255, DIV_W is at
most N, and the test layout has no 8-bit leaf; the default instance has N = 256. (00_scope.md section 4 (R8,
R10, R11)) -/
def Obligations.InstanceWidths : Prop :=
  (∀ c : Config, c.n = c.wLeaf.bits * 2 ^ c.depth ∧ 1 ≤ c.depth ∧ c.n = 2 ^ c.log2N ∧ 4 ≤ c.log2N ∧ c.log2N ≤ 255 ∧
    c.divW.bits ≤ c.n ∧ (c.mulLayout = .test → 16 ≤ c.wLeaf.bits)) ∧
  Config.default.n = 256

/-- In every state the word at status address 0x00 has FAULTED in bit 0, 0 in bits 3:1, CAUSE in bits 7:4 and 0 in
bits 31:8, and FAULT_OUT equals bit 0. (10_state.md section 4 (R27, R33)) -/
def Obligations.StatusWordLayout : Prop :=
  ∀ s : State, slice (s.csr 0x00#8).toNat 0 1 = s.faulted.toNat ∧ slice (s.csr 0x00#8).toNat 1 3 = 0 ∧
    slice (s.csr 0x00#8).toNat 4 4 = s.cause.toNat ∧ slice (s.csr 0x00#8).toNat 8 24 = 0 ∧
    (s.faultOut = true ↔ slice (s.csr 0x00#8).toNat 0 1 = 1)

/-- In every state the word at status address 0x04 holds log2(W_LEAF), log2(N), log2(DIV_W), 16 and MUL_LAYOUT in
the fields of R31 and 0 above them; it is 0x00106086 at the defaults; a reset input leaves it. (R31) -/
def Obligations.ConfigWordReportsInstance : Prop :=
  (∀ s : State, ∃ m, m = (s.csr 0x04#8).toNat ∧
    2 ^ slice m 0 4 = s.cfg.wLeaf.bits ∧ 2 ^ slice m 4 8 = s.cfg.n ∧ 2 ^ slice m 12 4 = s.cfg.divW.bits ∧
    slice m 16 5 = 16 ∧ (slice m 21 1 = 1 ↔ s.cfg.mulLayout = .test) ∧ slice m 22 10 = 0) ∧
  (∀ s t : State, takeEvent .reset s = .next t → t.csr 0x04#8 = s.csr 0x04#8) ∧
  State.reset.csr 0x04#8 = 0x00106086#32

/-- HostReadCsr(a) completes in every state, returns STATUS, CI, FAULT_CI, FAULT_CMD or CONFIG at addresses 0x00 to
0x04 and 0 at every other address, and changes nothing of the block (that the value is put in front of the
model's list of returned values is the model's choice, log 7); none of the three host port operations changes a
status register. (20_memory.md section 2 (R41), 10_state.md section 4 (R32)) -/
def Obligations.StatusReadReturnsRegister : Prop :=
  (∀ (s : State) (a : BitVec 8), ∃ t v, takeEvent (.hostReadCsr a) s = .next t ∧
    t.returned = .csrValue a v :: s.returned ∧ v = s.csr a ∧
    (a = 0x01#8 → v = s.ci) ∧ (a = 0x02#8 → v = s.faultCi) ∧ (a = 0x03#8 → v = s.faultCmd) ∧
    (a = 0x00#8 → v = s.status) ∧ (a = 0x04#8 → v = configWord s.cfg) ∧ (5 ≤ a.toNat → v = 0) ∧
    SameRegsBut [] s t ∧ SameStatus s t ∧ t.cfg = s.cfg ∧ t.inputs = s.inputs ∧ t.resets = s.resets) ∧
  (∀ (s t : State) (e : Event), ((∃ r v, e = .hostWriteReg r v) ∨ (∃ r, e = .hostReadReg r) ∨ ∃ a, e = .hostReadCsr a) →
    takeEvent e s = .next t → SameStatus s t ∧ ∀ a, t.csr a = s.csr a)

/-- In every state, faulted or not, HostWriteReg(r, v) of an N-bit value gives x[r] = v with the mark of r set;
every other register and mark, every status register and everything else is unchanged. (R39) -/
def Obligations.HostWriteSetsRegister : Prop :=
  ∀ (s : State) (r : RegNum) (v : Nat), v < 2 ^ s.cfg.n → ∃ t, takeEvent (.hostWriteReg r v) s = .next t ∧
    t.x r = v ∧ t.mark r = true ∧ SameRegsBut [r] s t ∧ SameStatus s t ∧ SameSurroundings s t

/-- In every state HostReadReg(r) completes, returns x[r], a value below 2^N, and changes nothing of the block (that
the value is put in front of the model's list of returned values is the model's choice, log 7); the checked
model does the same where the mark of r is set and raises UNWRITTEN_READ where it is clear. (20_memory.md
section 2 (R40)) -/
def Obligations.HostReadReturnsRegister : Prop :=
  ∀ (s : State) (r : RegNum), ∃ t, takeEvent (.hostReadReg r) s = .next t ∧
    t.returned = .regValue r (s.x r) :: s.returned ∧ s.x r < 2 ^ s.cfg.n ∧
    SameRegsBut [] s t ∧ SameStatus s t ∧ t.cfg = s.cfg ∧ t.inputs = s.inputs ∧ t.resets = s.resets ∧
    checkedEvent (.hostReadReg r) s = if s.mark r then .next t else .fault .unwrittenRead

/-- For every instance the state right after reset has every written mark clear and CI, FAULTED, CAUSE, FAULT_CI and
FAULT_CMD 0, so status addresses 0x00 to 0x03 read 0 and FAULT_OUT is 0; nothing is said of the register
contents, which the spec leaves unspecified. (10_state.md section 6 (R36), 70_reset_and_hazards.md section 1
(R107)) -/
def Obligations.ResetValues : Prop :=
  ∀ c : Config, (∀ r, (State.resetFor c).mark r = false) ∧ (State.resetFor c).ci = 0 ∧
    (State.resetFor c).faulted = false ∧ (State.resetFor c).cause = 0 ∧ (State.resetFor c).faultCi = 0 ∧
    (State.resetFor c).faultCmd = 0 ∧ (State.resetFor c).faultOut = false ∧ (State.resetFor c).cfg = c ∧
    ∀ a : BitVec 8, a.toNat < 4 → (State.resetFor c).csr a = 0

/-- From every state the reset input leads to a state with every mark clear and CI, STATUS, FAULT_CI, FAULT_CMD and
FAULT_OUT 0, with CONFIG unchanged (and the model's lists of inputs to come and of returned values, logs 5 and
7); and no other input takes a faulted block to one that is not faulted. (70_reset_and_hazards.md section 1
(R107), 60_exceptions.md section 3 (R97)) -/
def Obligations.ResetInputClearsEverything : Prop :=
  (∀ s : State, ∃ t, takeEvent .reset s = .next t ∧ (∀ r, t.mark r = false) ∧ t.ci = 0 ∧ t.faulted = false ∧
    t.cause = 0 ∧ t.faultCi = 0 ∧ t.faultCmd = 0 ∧ t.faultOut = false ∧ t.cfg = s.cfg ∧
    t.csr 0x04#8 = s.csr 0x04#8 ∧ t.inputs = s.inputs ∧ t.returned = s.returned) ∧
  (∀ (s t : State) (e : Event), s.faulted = true → takeEvent e s = .next t → t.faulted = false → e = .reset)

/-- A presented word that completes without a fault sets CI to CI + 1 modulo 2^32; one that faults or is discarded
leaves CI; so does every host port operation; a reset input sets it to 0. (10_state.md section 2 (R23, R24)) -/
def Obligations.CommandIndexCounts : Prop :=
  (∀ (s t : State) (w : Word), takeCommand w s = .next t →
    (t.faulted = false → t.ci.toNat = (s.ci.toNat + 1) % 2 ^ 32) ∧ (t.faulted = true → t.ci = s.ci)) ∧
  (∀ (s t : State) (e : Event), takeEvent e s = .next t →
    (e = .reset → t.ci = 0) ∧ (e ≠ .reset → (∀ w, e ≠ .command w) → t.ci = s.ci))

/-- In every state the tree of depth K of x[r] has value x[r], its 2^K leaves, least significant first, are the
W_LEAF-bit slices of x[r], and x[r] is hi * 2^(N/2) + lo of its halves, which are the values of the tree's two
parts. (R19) -/
def Obligations.RegisterHoldsCompositeTree : Prop :=
  ∀ (s : State) (r : RegNum), ∃ tree, tree = Composite.ofValue s.cfg.wLeaf.bits s.cfg.depth (s.x r) ∧
    Composite.value s.cfg.wLeaf.bits tree = s.x r ∧ Composite.width s.cfg.wLeaf.bits tree = s.cfg.n ∧
    tree.leaves = (List.range (2 ^ s.cfg.depth)).map (leafOf s.cfg.wLeaf.bits (s.x r)) ∧
    2 ^ s.cfg.depth * s.cfg.wLeaf.bits = s.cfg.n ∧
    s.x r = hiHalf (s.cfg.n / 2) (s.x r) * 2 ^ (s.cfg.n / 2) + loHalf (s.cfg.n / 2) (s.x r) ∧
    ∃ hi lo, tree = .pair hi lo ∧ Composite.value s.cfg.wLeaf.bits hi = hiHalf (s.cfg.n / 2) (s.x r) ∧
      Composite.value s.cfg.wLeaf.bits lo = loHalf (s.cfg.n / 2) (s.x r)

/-- If an input changes the contents or the mark of r, the input is a reset, a host write of r, or a presented word
that decodes to a command with r among its destinations and completes; if it changes a status register, it is a
reset or a presented word while not faulted; CONFIG never changes. (10_state.md sections 1 and 4 (R21, R26,
R27), 20_memory.md section 5 (R49)) -/
def Obligations.RegistersAndStatusChangeOnlyByTheirWriters : Prop :=
  ∀ (s t : State) (e : Event), takeEvent e s = .next t →
    (∀ r, t.x r ≠ s.x r ∨ t.mark r ≠ s.mark r →
      e = .reset ∨ (∃ v, e = .hostWriteReg r v) ∨
      ∃ w i, e = .command w ∧ s.faulted = false ∧ decode w = .ok i ∧ r ∈ destinations i ∧ t.faulted = false) ∧
    (¬ SameStatus s t → e = .reset ∨ ∃ w, e = .command w ∧ s.faulted = false) ∧
    t.cfg = s.cfg

/-- The words 0x11230000, 0x20FE0000, 0x35550000, 0x41342000 and 0x56897000 decode to add r1,r2,r3; sub r0,r15,r14;
mul r5,r5,r5; mulx r1,r2,r3,r4; divmod r6,r7,r8,r9; and the all-zero word is illegal. (95_test_vectors.md
section 6) -/
def Obligations.KnownWordsDecode : Prop :=
  decode 0b0001_0001_0010_0011_0000_000000000000#32 = .ok (.add 1 2 3) ∧
  decode 0b0010_0000_1111_1110_0000_000000000000#32 = .ok (.sub 0 15 14) ∧
  decode 0b0011_0101_0101_0101_0000_000000000000#32 = .ok (.mul 5 5 5) ∧
  decode 0b0100_0001_0011_0100_0010_000000000000#32 = .ok (.mulx 1 2 3 4) ∧
  decode 0b0101_0110_1000_1001_0111_000000000000#32 = .ok (.divmod 6 7 8 9) ∧
  decode 0#32 = .error .reservedOpcode

/-- For each of the five commands, a word decodes to it with given operands exactly when the masked word equals the
row's match value, the fields RD, RS1, RS2 (and RD2) are the operands' numbers, and, for MULX and DIVMOD, RD
differs from RD2. (30_encoding.md section 3 (R58), 30_encoding.md section 2 (R56, R57)) -/
def Obligations.DecodeMatchesOpcodeMap : Prop :=
  ∀ (w : Word) (rd rd2 rs1 rs2 : RegNum),
    (decode w = .ok (.add rd rs1 rs2) ↔ w &&& 0xF000FFFF#32 = 0x10000000#32 ∧ slice w.toNat 24 4 = rd.val ∧
      slice w.toNat 20 4 = rs1.val ∧ slice w.toNat 16 4 = rs2.val) ∧
    (decode w = .ok (.sub rd rs1 rs2) ↔ w &&& 0xF000FFFF#32 = 0x20000000#32 ∧ slice w.toNat 24 4 = rd.val ∧
      slice w.toNat 20 4 = rs1.val ∧ slice w.toNat 16 4 = rs2.val) ∧
    (decode w = .ok (.mul rd rs1 rs2) ↔ w &&& 0xF000FFFF#32 = 0x30000000#32 ∧ slice w.toNat 24 4 = rd.val ∧
      slice w.toNat 20 4 = rs1.val ∧ slice w.toNat 16 4 = rs2.val) ∧
    (decode w = .ok (.mulx rd rd2 rs1 rs2) ↔ w &&& 0xF0000FFF#32 = 0x40000000#32 ∧ rd ≠ rd2 ∧
      slice w.toNat 24 4 = rd.val ∧ slice w.toNat 20 4 = rs1.val ∧ slice w.toNat 16 4 = rs2.val ∧
      slice w.toNat 12 4 = rd2.val) ∧
    (decode w = .ok (.divmod rd rd2 rs1 rs2) ↔ w &&& 0xF0000FFF#32 = 0x50000000#32 ∧ rd ≠ rd2 ∧
      slice w.toNat 24 4 = rd.val ∧ slice w.toNat 20 4 = rs1.val ∧ slice w.toNat 16 4 = rs2.val ∧
      slice w.toNat 12 4 = rd2.val)

/-- For every well-formed command with any operands, decode of its word is that command, and so is what the host
reads from the word numbered as the opcode table numbers it. (30_encoding.md sections 2, 3 and 5 (R56, R58,
R61)) -/
def Obligations.DecodeOfEncodeIsIdentity : Prop :=
  ∀ i : Instr, i.wellFormed = true →
    decode (encode i) = .ok i ∧ decodeTableWord 32 (encode i).toNat = some i

/-- If a word decodes to a command, the command is well formed and its word is that word: no bit of a legal word is
dropped, so the word a fault records is the word presented. (30_encoding.md sections 4 and 5 (R60, R61)) -/
def Obligations.EncodeOfDecodeIsIdentity : Prop :=
  ∀ (w : Word) (i : Instr), decode w = .ok i → i.wellFormed = true ∧ encode i = w

/-- A word is refused by the decoder exactly when OP is 0 or 6 to 15, or bits 11:0 are not 0, or OP is 1 to 3 and
RD2 is not 0, or OP is 4 or 5 and RD = RD2; presented to a block that is not faulted it raises ILLEGAL_COMMAND,
writes no register and advances nothing. (R59) -/
def Obligations.IllegalWordsAreThoseOfR59 : Prop :=
  (∀ w : Word, (∃ e, decode w = .error e) ↔
    (slice w.toNat 28 4 = 0 ∨ 6 ≤ slice w.toNat 28 4) ∨ slice w.toNat 0 12 ≠ 0 ∨
    ((slice w.toNat 28 4 = 1 ∨ slice w.toNat 28 4 = 2 ∨ slice w.toNat 28 4 = 3) ∧ slice w.toNat 12 4 ≠ 0) ∨
    ((slice w.toNat 28 4 = 4 ∨ slice w.toNat 28 4 = 5) ∧ slice w.toNat 24 4 = slice w.toNat 12 4)) ∧
  (∀ (s : State) (w : Word) (e : DecodeError), s.faulted = false → decode w = .error e →
    ∃ t, takeCommand w s = .next t ∧ Raised 1 w s t)

/-- With a command word at the front of the inputs and the block not faulted: if it decodes to i, step is exec i on
the state whose inputs are the rest; if it is illegal, step raises ILLEGAL_COMMAND there; while faulted, step
only drops the word. (30_encoding.md section 5 (R62), 60_exceptions.md section 3 (R96)) -/
def Obligations.StepRunsPresentedCommand : Prop :=
  ∀ (s : State) (w : Word) (es : List Event), s.inputs = .command w :: es →
    (s.faulted = false → ∀ i, decode w = .ok i → step s = exec i (s.withInputs es)) ∧
    (s.faulted = false → ∀ e, decode w = .error e → step s = .next ((s.withInputs es).raise .illegalCommand w)) ∧
    (s.faulted = true → step s = .next (s.withInputs es))

/-- In every state that is not faulted, with the word of a well-formed command placed in front of what the host does
next, the step is exec of that command on the state as it was (how a word is placed is the model's convention,
logs 5 and 10). (30_encoding.md sections 1 and 5 (R54, R62)) -/
def Obligations.PlacedWordRunsNext : Prop :=
  ∀ (s : State) (i : Instr), s.faulted = false → i.wellFormed = true →
    step (s.withFetchWord 32 (encode i).toNat) = exec i s

/-- Every step answers a next state, never a fault or a refusal; it takes the first input and leaves the rest in
order; with nothing presented the state stays as it is (the model's reading of R106, log 6); the parameters
never change; at most one value is returned to the host (held in the model's list of returned values, log 7).
(70_reset_and_hazards.md sections 4 and 5 (R111, R113), 93_implementation_defined.md section 1, 20_memory.md
section 5 (R49)) -/
def Obligations.StepAlwaysAnswersAndTakesOneInput : Prop :=
  ∀ s : State, ∃ t, step s = .next t ∧ t.inputs = s.inputs.tail ∧ t.cfg = s.cfg ∧ (s.inputs = [] → t = s) ∧
    (t.returned = s.returned ∨ ∃ v, t.returned = v :: s.returned)

/-- For every operand choice, aliased or not, and every state, exec of ADD answers a next state with x[rd] = (x[rs1]
+ x[rs2]) mod 2^N, the mark of rd set, CI one more and everything else unchanged. (40_addsub.md section 1 (R67,
R70)) -/
def Obligations.AddCompletes : Prop :=
  ∀ (rd rs1 rs2 : RegNum) (s : State), ∃ t, exec (.add rd rs1 rs2) s = .next t ∧
    t.x rd = (s.x rs1 + s.x rs2) % 2 ^ s.cfg.n ∧ Completed [rd] s t

/-- For every operand choice and every state, exec of SUB answers a next state in which x[rd] is the integer
difference x[rs1] - x[rs2] modulo 2^N, the mark of rd is set, CI is one more and everything else is unchanged.
(40_addsub.md section 2 (R72)) -/
def Obligations.SubCompletes : Prop :=
  ∀ (rd rs1 rs2 : RegNum) (s : State), ∃ t, exec (.sub rd rs1 rs2) s = .next t ∧
    (t.x rd : Int) = ((s.x rs1 : Int) - (s.x rs2 : Int)) % 2 ^ s.cfg.n ∧ Completed [rd] s t

/-- For every operand choice and every state, exec of MUL answers a next state with x[rd] = (x[rs1] * x[rs2]) mod
2^N, the mark of rd set, CI one more and everything else unchanged. (41_multiply.md section 1 (R76)) -/
def Obligations.MulCompletes : Prop :=
  ∀ (rd rs1 rs2 : RegNum) (s : State), ∃ t, exec (.mul rd rs1 rs2) s = .next t ∧
    t.x rd = (s.x rs1 * s.x rs2) % 2 ^ s.cfg.n ∧ Completed [rd] s t

/-- For distinct destinations and every state, exec of MULX answers a next state in which x[rd2] * 2^N + x[rd] is
exactly the product of the old sources, CI is one more and everything else is unchanged; a term with equal
destinations has an illegal word and raises ILLEGAL_COMMAND (the model's reading, log 9). (41_multiply.md
section 2 (R77), 30_encoding.md section 4 (R59)) -/
def Obligations.MulxCompletes : Prop :=
  ∀ (rd rd2 rs1 rs2 : RegNum) (s : State),
    (rd ≠ rd2 → ∃ t, exec (.mulx rd rd2 rs1 rs2) s = .next t ∧
      t.x rd2 * 2 ^ s.cfg.n + t.x rd = s.x rs1 * s.x rs2 ∧ t.x rd < 2 ^ s.cfg.n ∧ Completed [rd, rd2] s t) ∧
    (rd = rd2 → ∃ t, exec (.mulx rd rd2 rs1 rs2) s = .next t ∧ Raised 1 (encode (.mulx rd rd2 rs1 rs2)) s t)

/-- For distinct destinations and a divisor whose low DIV_W bits are not 0, exec of DIVMOD answers a next state with
x[rd] and x[rd2] the quotient and remainder of the low DIV_W bits, CI one more and everything else unchanged;
where those bits are 0 it raises DIVIDE_BY_ZERO; a term with equal destinations raises ILLEGAL_COMMAND (log 9).
(42_divmod.md (R85, R86, R87), 30_encoding.md section 4 (R59)) -/
def Obligations.DivmodCompletes : Prop :=
  ∀ (rd rd2 rs1 rs2 : RegNum) (s : State),
    (rd ≠ rd2 → s.x rs2 % 2 ^ s.cfg.divW.bits ≠ 0 → ∃ t, exec (.divmod rd rd2 rs1 rs2) s = .next t ∧
      t.x rd = (s.x rs1 % 2 ^ s.cfg.divW.bits) / (s.x rs2 % 2 ^ s.cfg.divW.bits) ∧
      t.x rd2 = (s.x rs1 % 2 ^ s.cfg.divW.bits) % (s.x rs2 % 2 ^ s.cfg.divW.bits) ∧ Completed [rd, rd2] s t) ∧
    (rd ≠ rd2 → s.x rs2 % 2 ^ s.cfg.divW.bits = 0 → ∃ t, exec (.divmod rd rd2 rs1 rs2) s = .next t ∧
      Raised 2 (encode (.divmod rd rd2 rs1 rs2)) s t) ∧
    (rd = rd2 → ∃ t, exec (.divmod rd rd2 rs1 rs2) s = .next t ∧ Raised 1 (encode (.divmod rd rd2 rs1 rs2)) s t)

/-- In a block that is not faulted, every word 0001 dddd ssss tttt 0000 and twelve zeros completes with x[rd] = (a +
b) mod 2^N and CI one more, changes nothing else (so no flag and no status register), and in the checked model
does the same unless RS1 or RS2 was never written, which is UNWRITTEN_READ. (R67) -/
def Obligations.AddRule : Prop :=
  ∀ (s : State) (w : Word) (rd rs1 rs2 : RegNum), s.faulted = false → w &&& 0xF000FFFF#32 = 0x10000000#32 →
    slice w.toNat 24 4 = rd.val → slice w.toNat 20 4 = rs1.val → slice w.toNat 16 4 = rs2.val →
    ∃ t, takeCommand w s = .next t ∧ t.x rd = (s.x rs1 + s.x rs2) % 2 ^ s.cfg.n ∧ Completed [rd] s t ∧
      checkedEvent (.command w) s = if s.mark rs1 && s.mark rs2 then .next t else .fault .unwrittenRead

/-- In a block that is not faulted, every word 0010 dddd ssss tttt 0000 and twelve zeros completes with x[rd] the
difference a - b modulo 2^N and CI one more, changes nothing else, and in the checked model does the same unless
RS1 or RS2 was never written, which is UNWRITTEN_READ. (R72) -/
def Obligations.SubRule : Prop :=
  ∀ (s : State) (w : Word) (rd rs1 rs2 : RegNum), s.faulted = false → w &&& 0xF000FFFF#32 = 0x20000000#32 →
    slice w.toNat 24 4 = rd.val → slice w.toNat 20 4 = rs1.val → slice w.toNat 16 4 = rs2.val →
    ∃ t, takeCommand w s = .next t ∧ (t.x rd : Int) = ((s.x rs1 : Int) - (s.x rs2 : Int)) % 2 ^ s.cfg.n ∧ Completed [rd] s t ∧
      checkedEvent (.command w) s = if s.mark rs1 && s.mark rs2 then .next t else .fault .unwrittenRead

/-- In a block that is not faulted, every word 0011 dddd ssss tttt 0000 and twelve zeros completes with x[rd] = (a *
b) mod 2^N and CI one more, changes nothing else, and in the checked model does the same unless RS1 or RS2 was
never written, which is UNWRITTEN_READ. (R76) -/
def Obligations.MulRule : Prop :=
  ∀ (s : State) (w : Word) (rd rs1 rs2 : RegNum), s.faulted = false → w &&& 0xF000FFFF#32 = 0x30000000#32 →
    slice w.toNat 24 4 = rd.val → slice w.toNat 20 4 = rs1.val → slice w.toNat 16 4 = rs2.val →
    ∃ t, takeCommand w s = .next t ∧ t.x rd = (s.x rs1 * s.x rs2) % 2 ^ s.cfg.n ∧ Completed [rd] s t ∧
      checkedEvent (.command w) s = if s.mark rs1 && s.mark rs2 then .next t else .fault .unwrittenRead

/-- In a block that is not faulted, every word 0100 dddd ssss tttt eeee and twelve zeros with d and e different
completes with x[rd] = p mod 2^N and x[rd2] = p div 2^N of the exact product p of the old sources, changes
nothing else but CI, and in the checked model does so unless a source was never written; with d = e it raises
ILLEGAL_COMMAND. (R77) -/
def Obligations.MulxRule : Prop :=
  ∀ (s : State) (w : Word) (rd rd2 rs1 rs2 : RegNum), s.faulted = false → w &&& 0xF0000FFF#32 = 0x40000000#32 →
    slice w.toNat 24 4 = rd.val → slice w.toNat 20 4 = rs1.val → slice w.toNat 16 4 = rs2.val →
    slice w.toNat 12 4 = rd2.val →
    (rd ≠ rd2 → ∃ t, takeCommand w s = .next t ∧ t.x rd = s.x rs1 * s.x rs2 % 2 ^ s.cfg.n ∧
      t.x rd2 = s.x rs1 * s.x rs2 / 2 ^ s.cfg.n ∧ Completed [rd, rd2] s t ∧
      checkedEvent (.command w) s = if s.mark rs1 && s.mark rs2 then .next t else .fault .unwrittenRead) ∧
    (rd = rd2 → ∃ t, takeCommand w s = .next t ∧ Raised 1 w s t ∧ checkedEvent (.command w) s = .next t)

/-- In a block that is not faulted, every word 0101 dddd ssss tttt eeee and twelve zeros with d and e different
reads the low DIV_W bits a and b of its sources: b not 0 completes with x[rd] = a div b and x[rd2] = a mod b and
nothing else changed but CI; b = 0 raises DIVIDE_BY_ZERO with the word and CI recorded, no register written, and
the fault stays under every later input but reset; in the checked model an unwritten source is UNWRITTEN_READ
first; with d = e the word raises ILLEGAL_COMMAND. (R85, R86, R87) -/
def Obligations.DivmodRule : Prop :=
  ∀ (s : State) (w : Word) (rd rd2 rs1 rs2 : RegNum), s.faulted = false → w &&& 0xF0000FFF#32 = 0x50000000#32 →
    slice w.toNat 24 4 = rd.val → slice w.toNat 20 4 = rs1.val → slice w.toNat 16 4 = rs2.val →
    slice w.toNat 12 4 = rd2.val →
    (rd ≠ rd2 → ∃ t, takeCommand w s = .next t ∧
      (slice (s.x rs2) 0 s.cfg.divW.bits ≠ 0 → Completed [rd, rd2] s t ∧
        t.x rd = slice (s.x rs1) 0 s.cfg.divW.bits / slice (s.x rs2) 0 s.cfg.divW.bits ∧
        t.x rd2 = slice (s.x rs1) 0 s.cfg.divW.bits % slice (s.x rs2) 0 s.cfg.divW.bits) ∧
      (slice (s.x rs2) 0 s.cfg.divW.bits = 0 → Raised 2 w s t ∧
        ∀ e u, e ≠ .reset → takeEvent e t = .next u → SameStatus t u) ∧
      checkedEvent (.command w) s = if s.mark rs1 && s.mark rs2 then .next t else .fault .unwrittenRead) ∧
    (rd = rd2 → ∃ t, takeCommand w s = .next t ∧ Raised 1 w s t ∧ checkedEvent (.command w) s = .next t)

/-- Whenever DIVMOD completes on DIV_W-bit values a and b, the dividend is q * b + r with r below b, and both
results are below 2^DIV_W, so bits DIV_W to N-1 of both destinations are 0. (R88) -/
def Obligations.DivisionIdentity : Prop :=
  ∀ (rd rd2 rs1 rs2 : RegNum) (s t : State) (a b : Nat), rd ≠ rd2 → a = s.x rs1 % 2 ^ s.cfg.divW.bits →
    b = s.x rs2 % 2 ^ s.cfg.divW.bits → b ≠ 0 → exec (.divmod rd rd2 rs1 rs2) s = .next t →
    a = t.x rd * b + t.x rd2 ∧ t.x rd2 < b ∧ t.x rd < 2 ^ s.cfg.divW.bits ∧ t.x rd2 < 2 ^ s.cfg.divW.bits ∧
    slice (t.x rd) s.cfg.divW.bits (s.cfg.n - s.cfg.divW.bits) = 0 ∧
    slice (t.x rd2) s.cfg.divW.bits (s.cfg.n - s.cfg.divW.bits) = 0

/-- For each command, two choices of destinations with the same sources write the same results, whatever destination
names a source; add r, r, r doubles r; mulx into its own sources uses their old values; and writing two distinct
destinations in either order gives the same state. (R63) -/
def Obligations.AliasingNeverChangesAResult : Prop :=
  (∀ (rd rd2 qd qd2 rs1 rs2 : RegNum) (s : State), rd ≠ rd2 → qd ≠ qd2 →
    (∀ t u, exec (.add rd rs1 rs2) s = .next t → exec (.add qd rs1 rs2) s = .next u → t.x rd = u.x qd) ∧
    (∀ t u, exec (.sub rd rs1 rs2) s = .next t → exec (.sub qd rs1 rs2) s = .next u → t.x rd = u.x qd) ∧
    (∀ t u, exec (.mul rd rs1 rs2) s = .next t → exec (.mul qd rs1 rs2) s = .next u → t.x rd = u.x qd) ∧
    (∀ t u, exec (.mulx rd rd2 rs1 rs2) s = .next t → exec (.mulx qd qd2 rs1 rs2) s = .next u →
      t.x rd = u.x qd ∧ t.x rd2 = u.x qd2) ∧
    (∀ t u, exec (.divmod rd rd2 rs1 rs2) s = .next t → exec (.divmod qd qd2 rs1 rs2) s = .next u →
      t.faulted = u.faulted ∧
      (s.x rs2 % 2 ^ s.cfg.divW.bits ≠ 0 → t.x rd = u.x qd ∧ t.x rd2 = u.x qd2))) ∧
  (∀ (r : RegNum) (s t : State), exec (.add r r r) s = .next t → t.x r = 2 * s.x r % 2 ^ s.cfg.n) ∧
  (∀ (r q : RegNum) (s t : State), r ≠ q → exec (.mulx r q r q) s = .next t →
    t.x q * 2 ^ s.cfg.n + t.x r = s.x r * s.x q) ∧
  (∀ (r q : RegNum) (s : State) (v u : Nat), r ≠ q → (s.writeReg r v).writeReg q u = (s.writeReg q u).writeReg r v)

/-- For m-bit u and v and their wrapped sum s: s < u exactly when u + v reaches 2^m, and then u + v = s + 2^m; s < v
is an equivalent test; v = 0 gives no carry; the carry is 0 or 1. (R69) -/
def Obligations.CarryDetection : Prop :=
  ∀ m u v : Nat, u < 2 ^ m → v < 2 ^ m → ∃ s, s = addMod m u v ∧ (s < u ↔ 2 ^ m ≤ u + v) ∧
    (s < u → u + v = s + 2 ^ m) ∧ (s < v ↔ s < u) ∧ (v = 0 → carryOf s u = 0) ∧
    u + v = s + carryOf s u * 2 ^ m ∧ carryOf s u ≤ 1

/-- For m-bit u and v and their wrapped difference d: d > u exactly when v > u, and then u - v = d - 2^m; v = 0
gives no borrow. (R74) -/
def Obligations.BorrowDetection : Prop :=
  ∀ m u v : Nat, u < 2 ^ m → v < 2 ^ m → ∃ d, d = subMod m u v ∧ (u < d ↔ u < v) ∧
    (u < d → (u : Int) - v = d - 2 ^ m) ∧ (v = 0 → borrowOf d u = 0) ∧ borrowOf d u ≤ 1 ∧
    (u : Int) - v = d - borrowOf d u * 2 ^ m

/-- For N-bit a, b and c: addition commutes and associates, (a + b) - b = a, a + 0 = a; adding 1 where lo(a) is all
ones clears the low half and adds 1 to the high half modulo 2^(N/2); subtracting 1 where lo(a) is 0 sets the low
half and takes 1 from the high half modulo 2^(N/2); subtraction neither commutes nor associates. (R75) -/
def Obligations.AddSubLaws : Prop :=
  ∀ c : Config, (∀ a b d, a < 2 ^ c.n → b < 2 ^ c.n → d < 2 ^ c.n →
    addMod c.n a b = addMod c.n b a ∧ addMod c.n (addMod c.n a b) d = addMod c.n a (addMod c.n b d) ∧
    subMod c.n (addMod c.n a b) b = a ∧ addMod c.n a 0 = a ∧
    (loHalf (c.n / 2) a = 2 ^ (c.n / 2) - 1 → loHalf (c.n / 2) (addMod c.n a 1) = 0 ∧
      hiHalf (c.n / 2) (addMod c.n a 1) = addMod (c.n / 2) (hiHalf (c.n / 2) a) 1) ∧
    (loHalf (c.n / 2) a = 0 → loHalf (c.n / 2) (subMod c.n a 1) = 2 ^ (c.n / 2) - 1 ∧
      hiHalf (c.n / 2) (subMod c.n a 1) = subMod (c.n / 2) (hiHalf (c.n / 2) a) 1)) ∧
    (∃ a b, a < 2 ^ c.n ∧ b < 2 ^ c.n ∧ subMod c.n a b ≠ subMod c.n b a) ∧
    (∃ a b d, a < 2 ^ c.n ∧ b < 2 ^ c.n ∧ d < 2 ^ c.n ∧
      subMod c.n (subMod c.n a b) d ≠ subMod c.n a (subMod c.n b d))

/-- MUL and MULX of (a, b) write what they write of (b, a); MUL writes the low half of MULX's pair, which is the
exact product; a * 1 = a and a * 0 = 0; multiplication distributes over addition modulo 2^N. (R84) -/
def Obligations.MultiplyLaws : Prop :=
  (∀ (s : State) (rd rd2 rs1 rs2 : RegNum), rd ≠ rd2 → ∃ t u p q,
    exec (.mul rd rs1 rs2) s = .next t ∧ exec (.mul rd rs2 rs1) s = .next u ∧
    exec (.mulx rd rd2 rs1 rs2) s = .next p ∧ exec (.mulx rd rd2 rs2 rs1) s = .next q ∧
    t.x rd = u.x rd ∧ p.x rd = q.x rd ∧ p.x rd2 = q.x rd2 ∧ t.x rd = p.x rd ∧
    p.x rd2 * 2 ^ s.cfg.n + p.x rd = s.x rs1 * s.x rs2 ∧
    (s.x rs2 = 1 → t.x rd = s.x rs1) ∧ (s.x rs2 = 0 → t.x rd = 0)) ∧
  (∀ (c : Config) (a b d : Nat), mulMod c.n a (addMod c.n b d) = addMod c.n (mulMod c.n a b) (mulMod c.n a d))

/-- For every leaf width and depth and all a and b of that composite width M, the source's recursive addition, with
the carry found by comparison at each level, gives (a + b) mod 2^M. (R68) -/
def Obligations.RecursiveAddIsModularAdd : Prop :=
  ∀ (w : NativeWidth) (k a b : Nat), a < 2 ^ widthAt w.bits k → b < 2 ^ widthAt w.bits k →
    addc w.bits k a b = (a + b) % 2 ^ widthAt w.bits k

/-- For every leaf width and depth and all a and b of that composite width M, the source's recursive subtraction,
with the borrow found by comparison at each level, gives the integer difference modulo 2^M. (R73) -/
def Obligations.RecursiveSubIsModularSub : Prop :=
  ∀ (w : NativeWidth) (k a b : Nat), a < 2 ^ widthAt w.bits k → b < 2 ^ widthAt w.bits k →
    (subb w.bits k a b : Int) = ((a : Int) - b) % (2 ^ widthAt w.bits k : Nat)

/-- For M = 2H with H at least 1 and M-bit x and y, over exact half products: hi * hi is at most 2^M - 2^(H+1) + 1,
z2 at most 2^M - 2^H + 1 and so below 2^M, x * y = z0 + z1 * 2^H + z2 * 2^M, the low word with its carry is z0 +
lo(z1) * 2^H, x * y = L + Hh * 2^M, and Hh is below 2^M. (R81) -/
def Obligations.SchoolbookBounds : Prop :=
  ∀ (h x y : Nat) (st : SchoolSteps), 1 ≤ h → x < 2 ^ (2 * h) → y < 2 ^ (2 * h) → st = schoolSteps widening h x y →
    hiHalf h x * hiHalf h y + 2 ^ (h + 1) ≤ 2 ^ (2 * h) + 1 ∧ st.z2 + 2 ^ h ≤ 2 ^ (2 * h) + 1 ∧ st.z2 < 2 ^ (2 * h) ∧
    st.t1 + st.t2 = st.z1 + st.c1 * 2 ^ (2 * h) ∧ x * y = st.z0 + st.z1 * 2 ^ h + st.z2 * 2 ^ (2 * h) ∧
    st.z0 + loHalf h st.z1 * 2 ^ h = st.low + st.c2 * 2 ^ (2 * h) ∧
    x * y = st.low + st.high * 2 ^ (2 * h) ∧ st.low < 2 ^ (2 * h) ∧ st.high < 2 ^ (2 * h)

/-- For every leaf width, either layout and every depth, and all a and b of that composite width, the source's
product (the widening path where 2W is at most 64 in the production layout, the schoolbook fallback else, the
corrected schoolbook at every composite width) is exactly a * b. (R79, R80) -/
def Obligations.SchoolbookProductIsExact : Prop :=
  ∀ (w : NativeWidth) (l : MulLayout) (k a b : Nat), a < 2 ^ widthAt w.bits k → b < 2 ^ widthAt w.bits k →
    xmul w l k a b = a * b

/-- For every leaf width, either layout and every depth, and all a and b of that composite width M, the source's
truncated product gives (a * b) mod 2^M. (R82) -/
def Obligations.TruncatedProductIsModular : Prop :=
  ∀ (w : NativeWidth) (l : MulLayout) (k a b : Nat), a < 2 ^ widthAt w.bits k → b < 2 ^ widthAt w.bits k →
    tmul w l k a b = a * b % 2 ^ widthAt w.bits k

/-- In every state of every instance, ADD, SUB and MUL write what addc, subb and tmul give, and MULX writes the pair
xmul gives, run over the instance's own leaf width, layout and depth. (40_addsub.md (R68, R73), 41_multiply.md
section 3 (R78, R80, R82)) -/
def Obligations.CommandsEqualReferenceAlgorithms : Prop :=
  ∀ (s : State) (rd rd2 rs1 rs2 : RegNum), rd ≠ rd2 → ∃ t u p q,
    exec (.add rd rs1 rs2) s = .next t ∧ t.x rd = addc s.cfg.wLeaf.bits s.cfg.depth (s.x rs1) (s.x rs2) ∧
    exec (.sub rd rs1 rs2) s = .next u ∧ u.x rd = subb s.cfg.wLeaf.bits s.cfg.depth (s.x rs1) (s.x rs2) ∧
    exec (.mul rd rs1 rs2) s = .next p ∧
    p.x rd = tmul s.cfg.wLeaf s.cfg.mulLayout s.cfg.depth (s.x rs1) (s.x rs2) ∧
    exec (.mulx rd rd2 rs1 rs2) s = .next q ∧
    concatHalves s.cfg.n (q.x rd2) (q.x rd) = xmul s.cfg.wLeaf s.cfg.mulLayout s.cfg.depth (s.x rs1) (s.x rs2)

/-- Two states that are alike but for W_LEAF and MUL_LAYOUT (with the same N and DIV_W) go, under the same presented
word, to states that are alike in the same way, and every status address but CONFIG's reads the same in both.
(00_scope.md section 4 (R7, R10), 41_multiply.md section 3 (R78)) -/
def Obligations.LeafWidthAndLayoutAreInvisible : Prop :=
  ∀ (s s' t : State) (w : Word), SameButLayout s s' → takeCommand w s = .next t →
    ∃ t', takeCommand w s' = .next t' ∧ SameButLayout t t' ∧ ∀ a, a ≠ 0x04#8 → t.csr a = t'.csr a

/-- While not faulted: an illegal word raises code 1 and a DIVMOD whose divisor's low DIV_W bits are 0 raises code
2, each recording CI and the word and changing nothing else, with the divisor's register number in
FAULT_CMD[19:16]; and no other word leaves the block faulted. (R89, R90, R91) -/
def Obligations.FaultsExactlyWhenTheSpecSays : Prop :=
  ∀ (s t : State) (w : Word), s.faulted = false → takeCommand w s = .next t →
    ((∃ e, decode w = .error e) → Raised 1 w s t ∧ t.faultOut = true) ∧
    (∀ rd rd2 rs1 rs2, decode w = .ok (.divmod rd rd2 rs1 rs2) → s.x rs2 % 2 ^ s.cfg.divW.bits = 0 →
      Raised 2 w s t ∧ t.faultOut = true ∧ slice t.faultCmd.toNat 16 4 = rs2.val) ∧
    (t.faulted = true → (∃ e, decode w = .error e) ∨
      ∃ rd rd2 rs1 rs2, decode w = .ok (.divmod rd rd2 rs1 rs2) ∧ s.x rs2 % 2 ^ s.cfg.divW.bits = 0) ∧
    (t.faulted = false → t.cause = s.cause ∧ t.faultCi = s.faultCi ∧ t.faultCmd = s.faultCmd)

/-- For every presented word that decodes to ADD, SUB, MUL or MULX, whatever its operands, a block that is not
faulted stays so, and no status register but CI changes. (R92) -/
def Obligations.OverflowIsNeverAFault : Prop :=
  ∀ (s t : State) (w : Word) (i : Instr), s.faulted = false → decode w = .ok i →
    (∀ rd rd2 rs1 rs2, i ≠ .divmod rd rd2 rs1 rs2) → takeCommand w s = .next t →
    t.faulted = false ∧ t.cause = s.cause ∧ t.faultCi = s.faultCi ∧ t.faultCmd = s.faultCmd ∧ t.ci = s.ci + 1

/-- A faulted block discards the word whatever it is; else an illegal word raises ILLEGAL_COMMAND whatever the
marks; else a source with a clear mark is UNWRITTEN_READ whatever the values; else a DIVMOD with a zero divisor
raises DIVIDE_BY_ZERO; else the command completes. (R94) -/
def Obligations.FaultPriority : Prop :=
  ∀ (s : State) (w : Word),
    (s.faulted = true → checkedEvent (.command w) s = .next s) ∧
    (s.faulted = false → (∃ e, decode w = .error e) → ∃ t, checkedEvent (.command w) s = .next t ∧ Raised 1 w s t) ∧
    (s.faulted = false → ∀ i, decode w = .ok i →
      ((∃ r ∈ sources i, s.mark r = false) → checkedEvent (.command w) s = .fault .unwrittenRead) ∧
      ((∀ r ∈ sources i, s.mark r = true) →
        (∀ rd rd2 rs1 rs2, i = .divmod rd rd2 rs1 rs2 → s.x rs2 % 2 ^ s.cfg.divW.bits = 0 →
          ∃ t, checkedEvent (.command w) s = .next t ∧ Raised 2 w s t) ∧
        ((∀ rd rd2 rs1 rs2, i = .divmod rd rd2 rs1 rs2 → s.x rs2 % 2 ^ s.cfg.divW.bits ≠ 0) →
          ∃ t, checkedEvent (.command w) s = .next t ∧ Completed (destinations i) s t)))

/-- In a faulted block every presented word leaves the whole state as it is; HostWriteReg still writes, HostReadReg
still returns x[r] and HostReadCsr still returns csr[a] (that the value is put in front of the model's list of
returned values is the model's choice, log 7). (60_exceptions.md section 3 (R96)) -/
def Obligations.FaultedBlockDiscardsCommands : Prop :=
  ∀ s : State, s.faulted = true → (∀ w, takeEvent (.command w) s = .next s) ∧
    (∀ r v, v < 2 ^ s.cfg.n → ∃ t, takeEvent (.hostWriteReg r v) s = .next t ∧ t.x r = v ∧ t.mark r = true) ∧
    (∀ r, ∃ t, takeEvent (.hostReadReg r) s = .next t ∧ t.returned = .regValue r (s.x r) :: s.returned) ∧
    (∀ a, ∃ t, takeEvent (.hostReadCsr a) s = .next t ∧ t.returned = .csrValue a (s.csr a) :: s.returned)

/-- From a faulted state, running any list of inputs that holds no reset ends faulted with CI, CAUSE, FAULT_CI and
FAULT_CMD as they were. (60_exceptions.md section 3 (R97)) -/
def Obligations.FirstFaultStaysUntilReset : Prop :=
  ∀ (es : List Event) (s : State), s.faulted = true → Event.reset ∉ es →
    ∃ t, run es s = .next t ∧ t.faulted = true ∧ SameStatus s t

/-- The invariant: not faulted means CAUSE, FAULT_CI and FAULT_CMD are 0; faulted means FAULT_CI equals CI and CAUSE
is 1 with an illegal word in FAULT_CMD or 2 with a DIVMOD word in it. From every state that meets it, a step
leads to a state that meets it. (10_state.md section 4 (R27, R29, R30), 60_exceptions.md sections 1 and 3 (R89,
R95, R96)) -/
def Obligations.LatchInvariantKept : Prop :=
  ∀ s t : State, LatchInv s → step s = .next t → LatchInv t

/-- For every instance the state right after reset meets the fault latch invariant. (10_state.md section 6 (R36)) -/
def Obligations.LatchInvariantAtReset : Prop :=
  ∀ c : Config, LatchInv (State.resetFor c)

/-- If the checked model takes a list of inputs to a state, the hardware takes it to the same state, and where the
checked model stops, it stops with UNWRITTEN_READ (that step and the checked model are told apart is the model's
choice, log 4). (60_exceptions.md section 1 (R93), 92_eei_decisions.md D4) -/
def Obligations.CheckedRunsAreHardwareRuns : Prop :=
  ∀ (es : List Event) (s : State), (∀ t, checkedRun es s = .next t → run es s = .next t) ∧
    ((∃ t, checkedRun es s = .next t) ∨ checkedRun es s = .fault .unwrittenRead)

/-- Two states alike but for the contents of registers without a mark go, under any list of inputs that the checked
model accepts from one, to states alike in the same way, with the same status registers and the same values
returned to the host (held in the model's list, log 7). So nothing the checked model says rests on the value the
model names for a register at reset (log 2). (10_state.md section 1 (R21, R22), 60_exceptions.md section 1
(R93)) -/
def Obligations.UnwrittenContentsAreInvisible : Prop :=
  ∀ (es : List Event) (s s' t : State), SameButUnwritten s s' → checkedRun es s = .next t →
    ∃ t', checkedRun es s' = .next t' ∧ SameButUnwritten t t'

/-- From any state whose CI is k modulo 2^32, a run over any inputs that ends not faulted has CI equal to the number
of command words presented since its last reset (or k more, without a reset), modulo 2^32; so a checked run from
reset that ends not faulted is final. (70_reset_and_hazards.md section 3 (R110), 10_state.md section 2 (R23)) -/
def Obligations.CommandIndexCountsTheRun : Prop :=
  (∀ (es : List Event) (s t : State) (k : Nat), s.ci = BitVec.ofNat 32 k → run es s = .next t → t.faulted = false →
    t.ci = BitVec.ofNat 32 (commandsSinceReset k es)) ∧
  (∀ (c : Config) (es : List Event) (t : State),
    checkedRun es (State.resetFor c) = .next t → t.faulted = false → FinalRun c es t)

/-- add rD, rS; sub rD, rS; mul rD, rS; dbl; sqr; sqrx (with distinct destinations) and clr assemble to the words of
add rD, rD, rS; sub rD, rD, rS; mul rD, rD, rS; add rD, rS, rS; mul rD, rS, rS; mulx rLO, rHI, rS, rS; sub rD,
rD, rD; sqrx with equal destinations is refused. (30_encoding.md section 6 (R66)) -/
def Obligations.PseudoInstructionsExpand : Prop :=
  ∀ rD rS rHi : RegNum,
    (AsmStmt.addInPlace rD rS).assemble = .ok (encode (.add rD rD rS)) ∧
    (AsmStmt.subInPlace rD rS).assemble = .ok (encode (.sub rD rD rS)) ∧
    (AsmStmt.mulInPlace rD rS).assemble = .ok (encode (.mul rD rD rS)) ∧
    (AsmStmt.dbl rD rS).assemble = .ok (encode (.add rD rS rS)) ∧
    (AsmStmt.sqr rD rS).assemble = .ok (encode (.mul rD rS rS)) ∧
    (rD ≠ rHi → (AsmStmt.sqrx rD rHi rS).assemble = .ok (encode (.mulx rD rHi rS rS))) ∧
    (rD = rHi → (AsmStmt.sqrx rD rHi rS).assemble = .error .equalDestinations) ∧
    (AsmStmt.clr rD).assemble = .ok (encode (.sub rD rD rD))

/-- If a statement stands for a command and the assembler gives a word, that word decodes to the command; it refuses
exactly the statements whose command has equal destinations. (30_encoding.md section 6 (R65, R66),
93_implementation_defined.md section 1 (U18)) -/
def Obligations.AssembledCommandsAreLegal : Prop :=
  ∀ (a : AsmStmt) (i : Instr), a.expand = .inl i →
    (∀ w, a.assemble = .ok w → decode w = .ok i) ∧
    ((∃ e, a.assemble = .error e) ↔ i.wellFormed = false)
end

