-- ==== Sys2Proof/Laws/Arith.lean ====
section
/-! SUPPORT. The arithmetic of R13 to R15: bounds, halves, and sums and differences modulo a power of two. -/

namespace Sys2Proof.Machine

theorem slice_lt (v lo len : Nat) : slice v lo len < 2 ^ len := Nat.mod_lt _ (Nat.two_pow_pos len)

theorem loHalf_lt (h v : Nat) : loHalf h v < 2 ^ h := slice_lt v 0 h

theorem hiHalf_lt (h v : Nat) : hiHalf h v < 2 ^ h := slice_lt v h h

theorem addMod_lt (m a b : Nat) : addMod m a b < 2 ^ m := Nat.mod_lt _ (Nat.two_pow_pos m)

theorem mulMod_lt (m a b : Nat) : mulMod m a b < 2 ^ m := Nat.mod_lt _ (Nat.two_pow_pos m)

theorem loHalf_eq_mod (h v : Nat) : loHalf h v = v % 2 ^ h := by simp [loHalf, slice]

theorem hiHalf_eq_div {h v : Nat} (hv : v < 2 ^ (2 * h)) : hiHalf h v = v / 2 ^ h := by
  refine Nat.mod_eq_of_lt (Nat.div_lt_of_lt_mul ?_)
  rwa [← Nat.pow_add, ← Nat.two_mul]

/-- A value of 2h bits is its halves put together (R14). -/
theorem concat_halves {h v : Nat} (hv : v < 2 ^ (2 * h)) : concatHalves h (hiHalf h v) (loHalf h v) = v := by
  rw [hiHalf_eq_div hv, loHalf_eq_mod, concatHalves]
  exact Nat.div_add_mod' v (2 ^ h)

theorem concatHalves_lt {h hi lo : Nat} (hhi : hi < 2 ^ h) (hlo : lo < 2 ^ h) :
    concatHalves h hi lo < 2 ^ (2 * h) := by
  have : (hi + 1) * 2 ^ h ≤ 2 ^ h * 2 ^ h := Nat.mul_le_mul_right _ hhi
  rw [Nat.two_mul, Nat.pow_add, concatHalves]
  linarith

/-- The difference modulo 2^m is the integer difference modulo 2^m (R15). -/
theorem subMod_cast (m a b : Nat) : (subMod m a b : Int) = ((a : Int) - b) % (2 ^ m : Nat) :=
  Int.toNat_of_nonneg (Int.emod_nonneg _ (by positivity))

theorem subMod_lt (m a b : Nat) : subMod m a b < 2 ^ m := by
  have := Int.emod_lt_of_pos ((a : Int) - b) (b := ((2 ^ m : Nat) : Int)) (by positivity)
  have := subMod_cast m a b
  omega

/-- What the wrapped sum of two m-bit values is (R69). -/
theorem addMod_cases {m u v : Nat} (hu : u < 2 ^ m) (hv : v < 2 ^ m) :
    (u + v < 2 ^ m ∧ addMod m u v = u + v) ∨ (2 ^ m ≤ u + v ∧ addMod m u v + 2 ^ m = u + v) := by
  unfold addMod
  rcases Nat.lt_or_ge (u + v) (2 ^ m) with h | h
  · exact .inl ⟨h, Nat.mod_eq_of_lt h⟩
  · refine .inr ⟨h, ?_⟩
    rw [Nat.mod_eq_sub_mod h, Nat.mod_eq_of_lt (by omega)]
    omega

/-- What the wrapped difference of two m-bit values is (R74). -/
theorem subMod_cases {m u v : Nat} (hu : u < 2 ^ m) (hv : v < 2 ^ m) :
    (v ≤ u ∧ subMod m u v + v = u) ∨ (u < v ∧ subMod m u v + v = u + 2 ^ m) := by
  have hc := subMod_cast m u v
  rcases Nat.lt_or_ge u v with h | h
  · refine .inr ⟨h, ?_⟩
    rw [← Int.add_emod_right, Int.emod_eq_of_lt (by omega) (by omega)] at hc
    omega
  · refine .inl ⟨h, ?_⟩
    rw [Int.emod_eq_of_lt (by omega) (by omega)] at hc
    omega

theorem widthAt_succ (w k : Nat) : widthAt w (k + 1) = 2 * widthAt w k := by
  unfold widthAt; ring

end Sys2Proof.Machine
end

