-- ==== Sys2Proof/Laws/Decode.lean ====
section
/-! SUPPORT. The fields of a packed word, and a word put together from its fields. -/

namespace Sys2Proof

section fields

variable (op rd rs1 rs2 rd2 : BitVec 4)

theorem packR4_toNat : (packR4 op rd rs1 rs2 rd2).toNat =
    op.toNat * 2 ^ 28 + rd.toNat * 2 ^ 24 + rs1.toNat * 2 ^ 20 + rs2.toNat * 2 ^ 16 + rd2.toNat * 2 ^ 12 := by
  have h := rd.isLt
  have h1 := rs1.isLt
  have h2 := rs2.isLt
  have h3 := rd2.isLt
  simp only [packR4, BitVec.toNat_append, BitVec.toNat_ofNat, Nat.zero_mod, Nat.or_zero]
  rw [← Nat.shiftLeft_add_eq_or_of_lt h, ← Nat.shiftLeft_add_eq_or_of_lt h1, ← Nat.shiftLeft_add_eq_or_of_lt h2,
    ← Nat.shiftLeft_add_eq_or_of_lt h3]
  simp only [Nat.shiftLeft_eq]
  ring

theorem opField_packR4 : opField (packR4 op rd rs1 rs2 rd2) = op := by
  apply BitVec.eq_of_toNat_eq
  have := rd.isLt; have := rs1.isLt; have := rs2.isLt; have := rd2.isLt; have := op.isLt
  simp only [opField, BitVec.extractLsb'_toNat, packR4_toNat, Nat.shiftRight_eq_div_pow]
  omega

theorem rdField_packR4 : rdField (packR4 op rd rs1 rs2 rd2) = rd := by
  apply BitVec.eq_of_toNat_eq
  have := rd.isLt; have := rs1.isLt; have := rs2.isLt; have := rd2.isLt; have := op.isLt
  simp only [rdField, BitVec.extractLsb'_toNat, packR4_toNat, Nat.shiftRight_eq_div_pow]
  omega

theorem rs1Field_packR4 : rs1Field (packR4 op rd rs1 rs2 rd2) = rs1 := by
  apply BitVec.eq_of_toNat_eq
  have := rd.isLt; have := rs1.isLt; have := rs2.isLt; have := rd2.isLt; have := op.isLt
  simp only [rs1Field, BitVec.extractLsb'_toNat, packR4_toNat, Nat.shiftRight_eq_div_pow]
  omega

theorem rs2Field_packR4 : rs2Field (packR4 op rd rs1 rs2 rd2) = rs2 := by
  apply BitVec.eq_of_toNat_eq
  have := rd.isLt; have := rs1.isLt; have := rs2.isLt; have := rd2.isLt; have := op.isLt
  simp only [rs2Field, BitVec.extractLsb'_toNat, packR4_toNat, Nat.shiftRight_eq_div_pow]
  omega

theorem rd2Field_packR4 : rd2Field (packR4 op rd rs1 rs2 rd2) = rd2 := by
  apply BitVec.eq_of_toNat_eq
  have := rd.isLt; have := rs1.isLt; have := rs2.isLt; have := rd2.isLt; have := op.isLt
  simp only [rd2Field, BitVec.extractLsb'_toNat, packR4_toNat, Nat.shiftRight_eq_div_pow]
  omega

theorem zeroField_packR4 : zeroField (packR4 op rd rs1 rs2 rd2) = 0#12 := by
  apply BitVec.eq_of_toNat_eq
  have := rd.isLt; have := rs1.isLt; have := rs2.isLt; have := rd2.isLt; have := op.isLt
  simp only [zeroField, BitVec.extractLsb'_toNat, packR4_toNat, Nat.shiftRight_eq_div_pow]
  simp only [Nat.pow_zero, Nat.div_one, BitVec.toNat_ofNat]
  omega

end fields

/-- A word with bits 11:0 clear is its fields, packed (R56). -/
theorem packR4_fields {w : Word} (h : zeroField w = 0#12) :
    packR4 (opField w) (rdField w) (rs1Field w) (rs2Field w) (rd2Field w) = w := by
  apply BitVec.eq_of_toNat_eq
  have hw := w.isLt
  have hz := congrArg BitVec.toNat h
  simp only [zeroField, BitVec.extractLsb'_toNat, Nat.shiftRight_eq_div_pow, Nat.pow_zero, Nat.div_one,
    BitVec.toNat_ofNat] at hz
  simp only [packR4_toNat, opField, rdField, rs1Field, rs2Field, rd2Field, BitVec.extractLsb'_toNat,
    Nat.shiftRight_eq_div_pow]
  omega

theorem regOf_fieldOf (r : RegNum) : regOf (fieldOf r) = r := rfl

theorem fieldOf_regOf (f : BitVec 4) : fieldOf (regOf f) = f := rfl

theorem fieldOf_inj {a b : RegNum} : fieldOf a = fieldOf b ↔ a = b :=
  ⟨fun h => by rw [← regOf_fieldOf a, h, regOf_fieldOf], fun h => by rw [h]⟩

theorem fieldOf_toNat (r : RegNum) : (fieldOf r).toNat = r.val := rfl

end Sys2Proof
end

