-- ==== Sys2Proof/Laws/State.lean ====
section
/-! SUPPORT. One lemma per field and per update of the state, each true by unfolding, so that no later proof unfolds a
record update. The register file is read through `x` and `mark`: Laws/Ops.lean. -/

namespace Sys2Proof.Machine.State

/-! ### writeReg -/

@[simp] theorem writeReg_cfg (s : State) (r : RegNum) (v : Nat) : (s.writeReg r v).cfg = s.cfg := rfl
@[simp] theorem writeReg_ci (s : State) (r : RegNum) (v : Nat) : (s.writeReg r v).ci = s.ci := rfl
@[simp] theorem writeReg_faulted (s : State) (r : RegNum) (v : Nat) : (s.writeReg r v).faulted = s.faulted := rfl
@[simp] theorem writeReg_cause (s : State) (r : RegNum) (v : Nat) : (s.writeReg r v).cause = s.cause := rfl
@[simp] theorem writeReg_faultCi (s : State) (r : RegNum) (v : Nat) : (s.writeReg r v).faultCi = s.faultCi := rfl
@[simp] theorem writeReg_faultCmd (s : State) (r : RegNum) (v : Nat) : (s.writeReg r v).faultCmd = s.faultCmd := rfl
@[simp] theorem writeReg_inputs (s : State) (r : RegNum) (v : Nat) : (s.writeReg r v).inputs = s.inputs := rfl
@[simp] theorem writeReg_returned (s : State) (r : RegNum) (v : Nat) : (s.writeReg r v).returned = s.returned := rfl
@[simp] theorem writeReg_resets (s : State) (r : RegNum) (v : Nat) : (s.writeReg r v).resets = s.resets := rfl

/-! ### advanceCi -/

@[simp] theorem advanceCi_cfg (s : State) : (s.advanceCi).cfg = s.cfg := rfl
@[simp] theorem advanceCi_ci (s : State) : (s.advanceCi).ci = s.ci + 1 := rfl
@[simp] theorem advanceCi_faulted (s : State) : (s.advanceCi).faulted = s.faulted := rfl
@[simp] theorem advanceCi_cause (s : State) : (s.advanceCi).cause = s.cause := rfl
@[simp] theorem advanceCi_faultCi (s : State) : (s.advanceCi).faultCi = s.faultCi := rfl
@[simp] theorem advanceCi_faultCmd (s : State) : (s.advanceCi).faultCmd = s.faultCmd := rfl
@[simp] theorem advanceCi_inputs (s : State) : (s.advanceCi).inputs = s.inputs := rfl
@[simp] theorem advanceCi_returned (s : State) : (s.advanceCi).returned = s.returned := rfl
@[simp] theorem advanceCi_resets (s : State) : (s.advanceCi).resets = s.resets := rfl
@[simp] theorem advanceCi_x (s : State) (q : RegNum) : (s.advanceCi).x q = s.x q := rfl
@[simp] theorem advanceCi_mark (s : State) (q : RegNum) : (s.advanceCi).mark q = s.mark q := rfl

/-! ### raise -/

@[simp] theorem raise_cfg (s : State) (e : Exn) (w : Word) : (s.raise e w).cfg = s.cfg := rfl
@[simp] theorem raise_ci (s : State) (e : Exn) (w : Word) : (s.raise e w).ci = s.ci := rfl
@[simp] theorem raise_faulted (s : State) (e : Exn) (w : Word) : (s.raise e w).faulted = true := rfl
@[simp] theorem raise_cause (s : State) (e : Exn) (w : Word) : (s.raise e w).cause = causeCode e := rfl
@[simp] theorem raise_faultCi (s : State) (e : Exn) (w : Word) : (s.raise e w).faultCi = s.ci := rfl
@[simp] theorem raise_faultCmd (s : State) (e : Exn) (w : Word) : (s.raise e w).faultCmd = w := rfl
@[simp] theorem raise_inputs (s : State) (e : Exn) (w : Word) : (s.raise e w).inputs = s.inputs := rfl
@[simp] theorem raise_returned (s : State) (e : Exn) (w : Word) : (s.raise e w).returned = s.returned := rfl
@[simp] theorem raise_resets (s : State) (e : Exn) (w : Word) : (s.raise e w).resets = s.resets := rfl
@[simp] theorem raise_x (s : State) (e : Exn) (w : Word) (q : RegNum) : (s.raise e w).x q = s.x q := rfl
@[simp] theorem raise_mark (s : State) (e : Exn) (w : Word) (q : RegNum) : (s.raise e w).mark q = s.mark q := rfl

/-! ### withInputs -/

@[simp] theorem withInputs_cfg (s : State) (es : List Event) : (s.withInputs es).cfg = s.cfg := rfl
@[simp] theorem withInputs_ci (s : State) (es : List Event) : (s.withInputs es).ci = s.ci := rfl
@[simp] theorem withInputs_faulted (s : State) (es : List Event) : (s.withInputs es).faulted = s.faulted := rfl
@[simp] theorem withInputs_cause (s : State) (es : List Event) : (s.withInputs es).cause = s.cause := rfl
@[simp] theorem withInputs_faultCi (s : State) (es : List Event) : (s.withInputs es).faultCi = s.faultCi := rfl
@[simp] theorem withInputs_faultCmd (s : State) (es : List Event) : (s.withInputs es).faultCmd = s.faultCmd := rfl
@[simp] theorem withInputs_inputs (s : State) (es : List Event) : (s.withInputs es).inputs = es := rfl
@[simp] theorem withInputs_returned (s : State) (es : List Event) : (s.withInputs es).returned = s.returned := rfl
@[simp] theorem withInputs_resets (s : State) (es : List Event) : (s.withInputs es).resets = s.resets := rfl
@[simp] theorem withInputs_x (s : State) (es : List Event) (q : RegNum) : (s.withInputs es).x q = s.x q := rfl
@[simp] theorem withInputs_mark (s : State) (es : List Event) (q : RegNum) : (s.withInputs es).mark q = s.mark q := rfl

/-! ### hostWriteReg -/

@[simp] theorem hostWriteReg_cfg (s : State) (r : RegNum) (v : Nat) : (s.hostWriteReg r v).cfg = s.cfg := rfl
@[simp] theorem hostWriteReg_ci (s : State) (r : RegNum) (v : Nat) : (s.hostWriteReg r v).ci = s.ci := rfl
@[simp] theorem hostWriteReg_faulted (s : State) (r : RegNum) (v : Nat) : (s.hostWriteReg r v).faulted = s.faulted := rfl
@[simp] theorem hostWriteReg_cause (s : State) (r : RegNum) (v : Nat) : (s.hostWriteReg r v).cause = s.cause := rfl
@[simp] theorem hostWriteReg_faultCi (s : State) (r : RegNum) (v : Nat) : (s.hostWriteReg r v).faultCi = s.faultCi := rfl
@[simp] theorem hostWriteReg_faultCmd (s : State) (r : RegNum) (v : Nat) : (s.hostWriteReg r v).faultCmd = s.faultCmd := rfl
@[simp] theorem hostWriteReg_inputs (s : State) (r : RegNum) (v : Nat) : (s.hostWriteReg r v).inputs = s.inputs := rfl
@[simp] theorem hostWriteReg_returned (s : State) (r : RegNum) (v : Nat) : (s.hostWriteReg r v).returned = s.returned := rfl
@[simp] theorem hostWriteReg_resets (s : State) (r : RegNum) (v : Nat) : (s.hostWriteReg r v).resets = s.resets := rfl

/-! ### hostReadReg -/

@[simp] theorem hostReadReg_cfg (s : State) (r : RegNum) : (s.hostReadReg r).cfg = s.cfg := rfl
@[simp] theorem hostReadReg_ci (s : State) (r : RegNum) : (s.hostReadReg r).ci = s.ci := rfl
@[simp] theorem hostReadReg_faulted (s : State) (r : RegNum) : (s.hostReadReg r).faulted = s.faulted := rfl
@[simp] theorem hostReadReg_cause (s : State) (r : RegNum) : (s.hostReadReg r).cause = s.cause := rfl
@[simp] theorem hostReadReg_faultCi (s : State) (r : RegNum) : (s.hostReadReg r).faultCi = s.faultCi := rfl
@[simp] theorem hostReadReg_faultCmd (s : State) (r : RegNum) : (s.hostReadReg r).faultCmd = s.faultCmd := rfl
@[simp] theorem hostReadReg_inputs (s : State) (r : RegNum) : (s.hostReadReg r).inputs = s.inputs := rfl
@[simp] theorem hostReadReg_returned (s : State) (r : RegNum) : (s.hostReadReg r).returned = .regValue r (s.x r) :: s.returned := rfl
@[simp] theorem hostReadReg_resets (s : State) (r : RegNum) : (s.hostReadReg r).resets = s.resets := rfl
@[simp] theorem hostReadReg_x (s : State) (r : RegNum) (q : RegNum) : (s.hostReadReg r).x q = s.x q := rfl
@[simp] theorem hostReadReg_mark (s : State) (r : RegNum) (q : RegNum) : (s.hostReadReg r).mark q = s.mark q := rfl

/-! ### hostReadCsr -/

@[simp] theorem hostReadCsr_cfg (s : State) (a : BitVec 8) : (s.hostReadCsr a).cfg = s.cfg := rfl
@[simp] theorem hostReadCsr_ci (s : State) (a : BitVec 8) : (s.hostReadCsr a).ci = s.ci := rfl
@[simp] theorem hostReadCsr_faulted (s : State) (a : BitVec 8) : (s.hostReadCsr a).faulted = s.faulted := rfl
@[simp] theorem hostReadCsr_cause (s : State) (a : BitVec 8) : (s.hostReadCsr a).cause = s.cause := rfl
@[simp] theorem hostReadCsr_faultCi (s : State) (a : BitVec 8) : (s.hostReadCsr a).faultCi = s.faultCi := rfl
@[simp] theorem hostReadCsr_faultCmd (s : State) (a : BitVec 8) : (s.hostReadCsr a).faultCmd = s.faultCmd := rfl
@[simp] theorem hostReadCsr_inputs (s : State) (a : BitVec 8) : (s.hostReadCsr a).inputs = s.inputs := rfl
@[simp] theorem hostReadCsr_returned (s : State) (a : BitVec 8) : (s.hostReadCsr a).returned = .csrValue a (s.csr a) :: s.returned := rfl
@[simp] theorem hostReadCsr_resets (s : State) (a : BitVec 8) : (s.hostReadCsr a).resets = s.resets := rfl
@[simp] theorem hostReadCsr_x (s : State) (a : BitVec 8) (q : RegNum) : (s.hostReadCsr a).x q = s.x q := rfl
@[simp] theorem hostReadCsr_mark (s : State) (a : BitVec 8) (q : RegNum) : (s.hostReadCsr a).mark q = s.mark q := rfl

/-! ### takeReset -/

@[simp] theorem takeReset_cfg (s : State) : (s.takeReset).cfg = s.cfg := rfl
@[simp] theorem takeReset_ci (s : State) : (s.takeReset).ci = 0 := rfl
@[simp] theorem takeReset_faulted (s : State) : (s.takeReset).faulted = false := rfl
@[simp] theorem takeReset_cause (s : State) : (s.takeReset).cause = 0 := rfl
@[simp] theorem takeReset_faultCi (s : State) : (s.takeReset).faultCi = 0 := rfl
@[simp] theorem takeReset_faultCmd (s : State) : (s.takeReset).faultCmd = 0 := rfl
@[simp] theorem takeReset_inputs (s : State) : (s.takeReset).inputs = s.inputs := rfl
@[simp] theorem takeReset_returned (s : State) : (s.takeReset).returned = s.returned := rfl
@[simp] theorem takeReset_resets (s : State) : (s.takeReset).resets = s.resets + 1 := rfl

/-! ### resetFor -/

@[simp] theorem resetFor_cfg (c : Config) : (resetFor c).cfg = c := rfl
@[simp] theorem resetFor_ci (c : Config) : (resetFor c).ci = 0 := rfl
@[simp] theorem resetFor_faulted (c : Config) : (resetFor c).faulted = false := rfl
@[simp] theorem resetFor_cause (c : Config) : (resetFor c).cause = 0 := rfl
@[simp] theorem resetFor_faultCi (c : Config) : (resetFor c).faultCi = 0 := rfl
@[simp] theorem resetFor_faultCmd (c : Config) : (resetFor c).faultCmd = 0 := rfl
@[simp] theorem resetFor_inputs (c : Config) : (resetFor c).inputs = [] := rfl
@[simp] theorem resetFor_returned (c : Config) : (resetFor c).returned = [] := rfl
@[simp] theorem resetFor_resets (c : Config) : (resetFor c).resets = 0 := rfl

end Sys2Proof.Machine.State
end

