-- ==== Sys2Proof/Laws/Ops.lean ====
section
/-! SUPPORT. What each shared operation does to the registers, the marks and the rest: the lemmas a proof about a
meaning cites. -/

/-! ### Parameters -/

namespace Sys2Proof

theorem NativeWidth.two_mul_half_bits (w : NativeWidth) : 2 * (w.bits / 2) = w.bits := by
  cases w <;> rfl

theorem Config.n_eq (c : Config) : c.n = Machine.widthAt c.wLeaf.bits c.depth := rfl

theorem Config.n_eq_two_pow (c : Config) : c.n = 2 ^ c.log2N := by
  unfold Config.n Config.log2N NativeWidth.bits
  rw [Nat.pow_add]

/-- DIV_W is at most N (R11), so a DIV_W-bit result fits a register (R86). -/
theorem Config.divBits_le (c : Config) : c.divW.bits ≤ c.n := by
  rw [Config.n_eq_two_pow]
  exact Nat.pow_le_pow_right (by decide) c.legal.2.2.2

end Sys2Proof

namespace Sys2Proof.Machine

/-! ### Registers and marks -/

theorem State.x_lt (s : State) (r : RegNum) : s.x r < 2 ^ s.cfg.n := (s.regs[r]).isLt

theorem State.x_writeReg (s : State) (r q : RegNum) (v : Nat) :
    (s.writeReg r v).x q = if q = r then v % 2 ^ s.cfg.n else s.x q := by
  change ((s.regs.set r.val (BitVec.ofNat s.cfg.n v) r.isLt)[q.val]).toNat = _
  rw [Vector.getElem_set]
  by_cases h : q = r
  · simp [h]
  · simp [h, Fin.val_ne_of_ne (Ne.symm h), State.x]

theorem State.mark_writeReg (s : State) (r q : RegNum) (v : Nat) :
    (s.writeReg r v).mark q = if q = r then true else s.mark q := by
  change (s.written.set r.val true r.isLt)[q.val] = _
  rw [Vector.getElem_set]
  by_cases h : q = r
  · simp [h]
  · simp [h, Fin.val_ne_of_ne (Ne.symm h), State.mark]

@[simp] theorem State.takeReset_mark (s : State) (q : RegNum) : s.takeReset.mark q = false := by
  simp [State.mark, State.takeReset, State.atReset]

@[simp] theorem State.resetFor_mark (c : Config) (q : RegNum) : (State.resetFor c).mark q = false := by
  simp [State.mark, State.resetFor, State.atReset]

/-! ### The shared operations, each said once -/

/-- A command that completes with one destination. -/
theorem completed_completeOne (s : State) (rd : RegNum) (v : Nat) : Completed [rd] s (s.completeOne rd v) := by
  refine ⟨rfl, ?_, ?_, rfl, rfl, rfl, rfl, rfl, rfl, rfl, rfl⟩
  · simp [State.completeOne, State.mark_writeReg]
  · intro r hr
    simp only [List.mem_singleton] at hr
    simp [State.completeOne, State.mark_writeReg, State.x_writeReg, hr]

theorem x_completeOne (s : State) (rd : RegNum) (v : Nat) : (s.completeOne rd v).x rd = v % 2 ^ s.cfg.n := by
  simp [State.completeOne, State.x_writeReg]

/-- A command that completes with two destinations. -/
theorem completed_completeTwo (s : State) (rd rd2 : RegNum) (v v2 : Nat) :
    Completed [rd, rd2] s (s.completeTwo rd v rd2 v2) := by
  refine ⟨rfl, ?_, ?_, rfl, rfl, rfl, rfl, rfl, rfl, rfl, rfl⟩
  · simp [State.completeTwo, State.mark_writeReg]
  · intro r hr
    simp only [List.mem_cons, List.not_mem_nil, or_false, not_or] at hr
    simp [State.completeTwo, State.mark_writeReg, State.x_writeReg, hr]

theorem x_completeTwo_fst (s : State) {rd rd2 : RegNum} (h : rd ≠ rd2) (v v2 : Nat) :
    (s.completeTwo rd v rd2 v2).x rd = v % 2 ^ s.cfg.n := by
  simp [State.completeTwo, State.x_writeReg, h]

theorem x_completeTwo_snd (s : State) (rd rd2 : RegNum) (v v2 : Nat) :
    (s.completeTwo rd v rd2 v2).x rd2 = v2 % 2 ^ s.cfg.n := by
  simp [State.completeTwo, State.x_writeReg]

/-- Fault entry (R95). -/
theorem raised_raise (s : State) (e : Exn) (w : Word) : Raised (causeCode e) w s (s.raise e w) :=
  ⟨rfl, rfl, rfl, rfl, rfl, fun _ _ => ⟨rfl, rfl⟩, rfl, rfl, rfl, rfl⟩

/-! ### Operands -/

theorem State.nativeSource_lt (s : State) (r : RegNum) : s.nativeSource r < 2 ^ s.cfg.divW.bits := slice_lt _ _ _

theorem State.native_fits (s : State) {v : Nat} (h : v < 2 ^ s.cfg.divW.bits) : v % 2 ^ s.cfg.n = v :=
  Nat.mod_eq_of_lt (Nat.lt_of_lt_of_le h (Nat.pow_le_pow_right (by decide) s.cfg.divBits_le))

end Sys2Proof.Machine
end

