-- ==== Sys2Proof/Laws/PerInstr.lean ====
section
/-! SUPPORT. The family Layout: the word of every command lays its fields where R56 and R58 put them. -/

namespace Sys2Proof.Laws.Layout

/-- OP in bits 31:28, bits 11:0 clear, and bits 15:12 clear but for MULX and DIVMOD (R56, R58). -/
def Statement (i : Instr) : Prop :=
  opField (encode i) = opcode i ∧ zeroField (encode i) = 0#12 ∧
  (opcode i = 0x1#4 ∨ opcode i = 0x2#4 ∨ opcode i = 0x3#4 → rd2Field (encode i) = 0#4)

theorem add (rd rs1 rs2 : RegNum) : Statement (.add rd rs1 rs2) :=
  ⟨opField_packR4 _ _ _ _ _, zeroField_packR4 _ _ _ _ _, fun _ => rd2Field_packR4 _ _ _ _ _⟩

theorem sub (rd rs1 rs2 : RegNum) : Statement (.sub rd rs1 rs2) :=
  ⟨opField_packR4 _ _ _ _ _, zeroField_packR4 _ _ _ _ _, fun _ => rd2Field_packR4 _ _ _ _ _⟩

theorem mul (rd rs1 rs2 : RegNum) : Statement (.mul rd rs1 rs2) :=
  ⟨opField_packR4 _ _ _ _ _, zeroField_packR4 _ _ _ _ _, fun _ => rd2Field_packR4 _ _ _ _ _⟩

theorem mulx (rd rd2 rs1 rs2 : RegNum) : Statement (.mulx rd rd2 rs1 rs2) :=
  ⟨opField_packR4 _ _ _ _ _, zeroField_packR4 _ _ _ _ _, fun h => by simp [opcode] at h⟩

theorem divmod (rd rd2 rs1 rs2 : RegNum) : Statement (.divmod rd rd2 rs1 rs2) :=
  ⟨opField_packR4 _ _ _ _ _, zeroField_packR4 _ _ _ _ _, fun h => by simp [opcode] at h⟩

end Sys2Proof.Laws.Layout
end

