-- ==== Sys2Proof/Laws/Step.lean ====
section
/-! SUPPORT. What a command can do, said once: `exec` answers a next state, and that state is the completed one or one
of the two fault entries. -/

namespace Sys2Proof.Machine

theorem execMulx_equal (rd rs1 rs2 : RegNum) (s : State) :
    execMulx rd rd rs1 rs2 s = .next (s.raise .illegalCommand (encode (.mulx rd rd rs1 rs2))) := by
  simp [execMulx]

theorem execMulx_distinct {rd rd2 : RegNum} (h : rd ≠ rd2) (rs1 rs2 : RegNum) (s : State) :
    execMulx rd rd2 rs1 rs2 s = .next (s.completeTwo rd (slice (s.x rs1 * s.x rs2) 0 s.cfg.n) rd2
      (slice (s.x rs1 * s.x rs2) s.cfg.n s.cfg.n)) := by
  simp [execMulx, h, State.source]

theorem execDivmod_equal (rd rs1 rs2 : RegNum) (s : State) :
    execDivmod rd rd rs1 rs2 s = .next (s.raise .illegalCommand (encode (.divmod rd rd rs1 rs2))) := by
  simp [execDivmod]

theorem execDivmod_zero {rd rd2 : RegNum} (h : rd ≠ rd2) (rs1 : RegNum) {rs2 : RegNum} {s : State}
    (h0 : s.nativeSource rs2 = 0) :
    execDivmod rd rd2 rs1 rs2 s = .next (s.raise .divideByZero (encode (.divmod rd rd2 rs1 rs2))) := by
  simp [execDivmod, h, h0]

theorem execDivmod_nonzero {rd rd2 : RegNum} (h : rd ≠ rd2) (rs1 : RegNum) {rs2 : RegNum} {s : State}
    (h0 : s.nativeSource rs2 ≠ 0) :
    execDivmod rd rd2 rs1 rs2 s = .next (s.completeTwo rd (s.nativeSource rs1 / s.nativeSource rs2) rd2
      (s.nativeSource rs1 % s.nativeSource rs2)) := by
  simp [execDivmod, h, h0]

/-- The cases of one command: it completes and writes its destinations; its term has no legal word; it divides by
zero. -/
theorem exec_cases (i : Instr) (s : State) : ∃ t, exec i s = .next t ∧
    ((i.wellFormed = true ∧ Completed (destinations i) s t) ∨
     (i.wellFormed = false ∧ Raised 1 (encode i) s t) ∨
     (∃ rd rd2 rs1 rs2, i = .divmod rd rd2 rs1 rs2 ∧ rd ≠ rd2 ∧ s.nativeSource rs2 = 0 ∧
       Raised 2 (encode i) s t)) := by
  cases i with
  | add rd rs1 rs2 => exact ⟨_, rfl, .inl ⟨rfl, completed_completeOne s rd _⟩⟩
  | sub rd rs1 rs2 => exact ⟨_, rfl, .inl ⟨rfl, completed_completeOne s rd _⟩⟩
  | mul rd rs1 rs2 => exact ⟨_, rfl, .inl ⟨rfl, completed_completeOne s rd _⟩⟩
  | mulx rd rd2 rs1 rs2 =>
    by_cases h : rd = rd2
    · subst h
      exact ⟨_, execMulx_equal rd rs1 rs2 s, .inr (.inl ⟨by simp [Instr.wellFormed], raised_raise s .illegalCommand _⟩)⟩
    · exact ⟨_, execMulx_distinct h rs1 rs2 s, .inl ⟨by simp [Instr.wellFormed, h], completed_completeTwo s rd rd2 _ _⟩⟩
  | divmod rd rd2 rs1 rs2 =>
    by_cases h : rd = rd2
    · subst h
      exact ⟨_, execDivmod_equal rd rs1 rs2 s, .inr (.inl ⟨by simp [Instr.wellFormed], raised_raise s .illegalCommand _⟩)⟩
    · by_cases h0 : s.nativeSource rs2 = 0
      · exact ⟨_, execDivmod_zero h rs1 h0, .inr (.inr ⟨rd, rd2, rs1, rs2, rfl, h, h0, raised_raise s .divideByZero _⟩)⟩
      · exact ⟨_, execDivmod_nonzero h rs1 h0, .inl ⟨by simp [Instr.wellFormed, h], completed_completeTwo s rd rd2 _ _⟩⟩

theorem takeCommand_faulted {s : State} (h : s.faulted = true) (w : Word) : takeCommand w s = .next s := by
  simp [takeCommand, h]

theorem takeCommand_illegal {s : State} (h : s.faulted = false) {w : Word} {e : DecodeError}
    (hd : decode w = .error e) : takeCommand w s = .next (s.raise .illegalCommand w) := by
  simp [takeCommand, h, hd]

theorem takeCommand_legal {s : State} (h : s.faulted = false) {w : Word} {i : Instr} (hd : decode w = .ok i) :
    takeCommand w s = exec i s := by
  simp [takeCommand, h, hd]

theorem step_cons {s : State} {e : Event} {es : List Event} (h : s.inputs = e :: es) :
    step s = takeEvent e (s.withInputs es) := by
  simp [step, h]

theorem step_idle {s : State} (h : s.inputs = []) : step s = .next s := by
  simp [step, h]

end Sys2Proof.Machine
end

