-- ==== Sys2Proof/Tests/Slice0.lean ====
section
/-! SUPPORT. Tests: expected values are those of spec/95_test_vectors.md (cited by vector), never the model's own
answers; and one witness for the hypotheses of each statement that has some. -/

namespace Sys2Proof.Tests

open Sys2Proof.Machine

/-! ### Small states -/

/-- Config S of 95: W_LEAF 8, N 16, DIV_W 8, production. -/
def cfgS : Config := ⟨.w8, 1, .production, .w8, by decide⟩

/-- Config T of 95: W_LEAF 16, N 32, DIV_W 16, test. -/
def cfgT : Config := ⟨.w16, 1, .test, .w16, by decide⟩

/-- After reset, with these registers written by the host. -/
def loaded (c : Config) (l : List (RegNum × Nat)) : State := l.foldl (fun s p => s.hostWriteReg p.1 p.2) (State.resetFor c)

/-- The next state of an outcome. -/
def nextOf : Host.Outcome State Fault Refusal → Option State
  | .next t => some t
  | .fault _ => none
  | .refused _ => none

/-- Registers and CI after a presented word. -/
def afterWord (w : Word) (s : State) (rs : List RegNum) : Option (List Nat × Nat) :=
  (nextOf (takeCommand w s)).map fun t => (rs.map t.x, t.ci.toNat)

/-! ### Parameters, well-formedness, decoding -/

theorem test_test_layout_with_w8_refused : Config.ofParams? .w8 1 .test .w8 = none := by decide

theorem test_mulx_equal_destinations_ill_formed : (Instr.mulx 1 1 3 4).wellFormed = false := by decide

theorem test_divmod_equal_destinations_ill_formed : (Instr.divmod 0 0 0 0).wellFormed = false := by decide

-- V-E1 to V-E5, each word written out from R56
theorem test_decode_add : decode 0b0001_0001_0010_0011_0000_000000000000#32 = .ok (.add 1 2 3) := by decide

theorem test_decode_sub : decode 0b0010_0000_1111_1110_0000_000000000000#32 = .ok (.sub 0 15 14) := by decide

theorem test_decode_mul : decode 0b0011_0101_0101_0101_0000_000000000000#32 = .ok (.mul 5 5 5) := by decide

theorem test_decode_mulx : decode 0b0100_0001_0011_0100_0010_000000000000#32 = .ok (.mulx 1 2 3 4) := by decide

theorem test_decode_divmod : decode 0b0101_0110_1000_1001_0111_000000000000#32 = .ok (.divmod 6 7 8 9) := by decide

theorem test_decodeTableWord : decodeTableWord 32 0x41342000 = some (.mulx 1 2 3 4) := by decide

-- V-I1 to V-I3, V-I6 to V-I11: one of each clause of R59 and its edges
theorem test_illegal_words :
    ([0x00000000, 0x60000000, 0xF1230000].map fun w : Word => decode w) = List.replicate 3 (.error .reservedOpcode) ∧
    ([0x11230001, 0x11230800].map fun w : Word => decode w) = List.replicate 2 (.error .nonzeroZeroField) ∧
    ([0x11231000, 0x31231000].map fun w : Word => decode w) = List.replicate 2 (.error .nonzeroRd2) ∧
    ([0x41341000, 0x50000000].map fun w : Word => decode w) = List.replicate 2 (.error .equalDestinations) := by decide

/-! ### The commands -/

-- V-A1
theorem test_add_carry : afterWord 0x13120000 (loaded cfgS [(1, 0x00FF), (2, 0x0001)]) [3] = some ([0x0100], 1) := by decide

-- V-A7: source and destination the same
theorem test_add_alias : afterWord 0x11110000 (loaded cfgS [(1, 0x8001)]) [1] = some ([0x0002], 1) := by decide

-- V-S1
theorem test_sub_borrow : afterWord 0x23120000 (loaded cfgS [(1, 0), (2, 1)]) [3] = some ([0xFFFF], 1) := by decide

-- V-S7: RS1 is the minuend
theorem test_sub_order : afterWord 0x23120000 (loaded cfgS [(1, 0x1234), (2, 0x5678)]) [3] = some ([0xBBBC], 1) := by decide

-- V-M2
theorem test_mul_wraps : afterWord 0x33120000 (loaded cfgS [(1, 0xFFFF), (2, 0xFFFF)]) [3] = some ([0x0001], 1) := by decide

-- V-M8: the cross term of R83
theorem test_mul_cross_term : afterWord 0x33120000 (loaded cfgS [(1, 0x0001), (2, 0x0100)]) [3] = some ([0x0100], 1) := by
  decide

-- V-M11, on the default instance
theorem test_mulx_largest :
    afterWord 0x42113000 (loaded Config.default [(1, 2 ^ 256 - 1)]) [2, 3] = some ([1, 2 ^ 256 - 2], 1) := by decide

-- P4: both destinations are the sources
theorem test_mulx_alias :
    afterWord 0x41122000 (loaded cfgS [(1, 0x1234), (2, 0x5678)]) [1, 2] = some ([0x0060, 0x0626], 1) := by decide

-- V-D7: upper bits of both sources ignored
theorem test_divmod_low_bits :
    afterWord 0x53124000 (loaded cfgS [(1, 0x1211), (2, 0x0305)]) [3, 4] = some ([3, 2], 1) := by decide

-- V-D8: a divisor whose low DIV_W bits are 0
theorem test_divmod_by_zero :
    (nextOf (takeCommand 0x53124000 (loaded cfgS [(1, 0x0011), (2, 0x0100)]))).map
      (fun t => (t.csr 0, t.csr 1, t.csr 2, t.csr 3, t.mark 3)) = some (0x21, 0, 0, 0x53124000, false) := by decide

/-! ### Status, faults, reset, runs -/

-- the CONFIG table of 95 section 6
theorem test_config_words :
    configWord Config.default = 0x00106086 ∧ configWord cfgS = 0x00103043 ∧ configWord cfgT = 0x00304054 ∧
    configWord ⟨.w8, 252, .production, .w64, by decide⟩ = 0x00106FF3 := by decide

-- section 6: STATUS after an illegal word as the first command since reset
theorem test_illegal_command_status :
    (nextOf (takeCommand 0x11231000 State.reset)).map (fun t => (t.csr 0, t.csr 1, t.csr 2, t.csr 3)) =
      some (0x11, 0, 0, 0x11231000) := by decide

-- P3: the command after a fault is discarded
theorem test_discard_after_fault :
    (nextOf (run [.command 0x56127000, .command 0x18110000] (loaded cfgS [(1, 0x11), (2, 0)]))).map
      (fun t => (t.status, t.ci, t.mark 8)) = some (0x21, 0, false) := by decide

-- P4: reset leaves the faulted state
theorem test_reset_after_fault :
    (nextOf (run [.command 0x11231000, .reset, .hostReadCsr 0] (loaded cfgS [(1, 0x1234)]))).map
      (fun t => (t.returned, t.mark 1)) = some ([.csrValue 0 0], false) := by decide

-- P5: the spec's model stops; the hardware goes on
theorem test_unwritten_read :
    checkedRun [.command 0x13120000] (loaded cfgS [(1, 1)]) = .fault .unwrittenRead ∧
    (nextOf (run [.command 0x13120000] (loaded cfgS [(1, 1)]))).map (fun t => (t.status, t.ci)) = some (0, 1) :=
  ⟨by rfl, by decide⟩

-- U3 of 93, R40: a host read of a clear mark stops the spec's model and nothing in the hardware
theorem test_unwritten_host_read :
    checkedEvent (.hostReadReg 2) (loaded cfgS [(1, 0x1234)]) = .fault .unwrittenRead ∧
    checkedRun [.hostReadReg 1, .hostReadReg 2] (loaded cfgS [(1, 0x1234)]) = .fault .unwrittenRead ∧
    (nextOf (takeEvent (.hostReadReg 2) (loaded cfgS [(1, 0x1234)]))).map (fun t => (t.status, t.ci, t.mark 2)) =
      some (0, 0, false) :=
  ⟨by rfl, by rfl, by decide⟩

-- R40: the checked model reads a written register as the hardware does
theorem test_checked_host_read :
    (nextOf (checkedEvent (.hostReadReg 1) (loaded cfgS [(1, 0x1234)]))).map (fun t => t.returned) =
      some [.regValue 1 0x1234] := by decide

theorem test_placed_word_runs_from_reset :
    (nextOf (step (State.reset.withFetchWord 32 0x11230000))).map (fun t => (t.ci, t.mark 1, t.inputs)) =
      some (1, true, []) := by decide

/-! ### The reference algorithms -/

-- V-M12
theorem test_school_steps :
    schoolSteps (xmul .w8 .production 0) 8 0xFFFF 0xFFFF =
      ⟨0xFE01, 0xFE01, 0xFE01, 0xFC02, 1, 0xFF01, 0x0001, 1, 0xFFFE⟩ := by decide

-- V-M14: the 64-bit leaf falls back to the schoolbook
theorem test_leaf_fallback :
    schoolSteps widening 32 (2 ^ 64 - 1) (2 ^ 64 - 1) =
      ⟨0xFFFFFFFE00000001, 0xFFFFFFFE00000001, 0xFFFFFFFE00000001, 0xFFFFFFFC00000002, 1, 0xFFFFFFFF00000001, 1, 1,
        0xFFFFFFFFFFFFFFFE⟩ ∧
    xmulLeaf .w64 .production (2 ^ 64 - 1) (2 ^ 64 - 1) = 0xFFFFFFFFFFFFFFFE0000000000000001 := by decide

-- V-M16: the test layout
theorem test_layout_product : xmul .w16 .test 1 0x12345678 0x9ABCDEF0 = 0x0B00EA4E242D2080 := by decide

theorem test_layout_truncated : tmul .w16 .test 1 0x12345678 0x9ABCDEF0 = 0x242D2080 := by decide

theorem test_layout_carry :
    (schoolSteps (xmul .w16 .test 0) 16 0x12345678 0x9ABCDEF0).low = 0x242D2080 ∧
    (schoolSteps (xmul .w16 .test 0) 16 0x12345678 0x9ABCDEF0).c2 = 1 := by decide

-- V-A11, V-S8
theorem test_ripple : addc 64 2 (2 ^ 192 - 1) 1 = 2 ^ 192 ∧ subb 64 2 (2 ^ 128) 1 = 2 ^ 128 - 1 := by decide

theorem test_leaves : (Composite.ofValue 8 1 0x1234).leaves = [0x34, 0x12] := by decide

/-! ### The assembler (V-E1, V-E5, V-E6, U18 of 93) -/

theorem test_assemble_add :
    assembleLine ['a', 'd', 'd', ' ', 'r', '1', ',', ' ', 'r', '2', ',', ' ', 'r', '3', ' ', ';', 'x'] =
      .ok (some 0x11230000) := by decide

theorem test_assemble_dbl :
    assembleLine ['d', 'b', 'l', ' ', 'r', '1', '5', ',', ' ', 'r', '1', '5'] = .ok (some 0x1FFF0000) := by decide

theorem test_assemble_word :
    assembleLine ['.', 'w', 'o', 'r', 'd', ' ', '0', 'x', '1', '1', '2', '3', '1', '0', '0', '0'] =
      .ok (some 0x11231000) := by decide

theorem test_assemble_refuses_equal :
    assembleLine ['m', 'u', 'l', 'x', ' ', 'r', '1', ',', 'r', '1', ',', 'r', '2', ',', 'r', '3'] =
      .error .equalDestinations := by decide

/-! ### Witnesses: concrete inputs that meet the hypotheses of each statement -/

/-- r1 = 0xFFFF, r2 = 1, r3 = 0 on Config S. -/
def sample : State := loaded cfgS [(1, 0xFFFF), (2, 1), (3, 0)]

/-- `sample` after an illegal word. -/
def sampleFaulted : State := sample.raise .illegalCommand 0x11231000

theorem witness_ConfigWordReportsInstance : ∃ t, takeEvent .reset sampleFaulted = .next t := ⟨_, rfl⟩

theorem witness_StatusReadReturnsRegister :
    (0xFF#8).toNat ≥ 5 ∧ (0x05#8).toNat ≥ 5 ∧ ∃ t, takeEvent (.hostWriteReg 1 2) sampleFaulted = .next t :=
  ⟨by decide, by decide, _, rfl⟩

theorem witness_HostWriteSetsRegister : 2 ^ 16 - 1 < 2 ^ sample.cfg.n ∧ 2 ^ 16 - 1 < 2 ^ sampleFaulted.cfg.n := by decide

theorem witness_HostReadReturnsRegister :
    sample.mark 1 = true ∧ sample.mark 15 = false ∧
    (∃ t, checkedEvent (.hostReadReg 1) sample = .next t ∧ t.x 1 = 0xFFFF) ∧
    checkedEvent (.hostReadReg 15) sample = .fault .unwrittenRead ∧ ∃ t, takeEvent (.hostReadReg 15) sample = .next t :=
  ⟨by decide, by decide, ⟨_, rfl, by decide⟩, by rfl, _, rfl⟩

theorem witness_ResetValues : (0x00#8).toNat < 4 ∧ (0x03#8).toNat < 4 := by decide

theorem witness_ResetInputClearsEverything :
    sampleFaulted.faulted = true ∧ ∃ t, takeEvent .reset sampleFaulted = .next t ∧ t.faulted = false :=
  ⟨rfl, _, rfl, rfl⟩

theorem witness_CommandIndexCounts :
    (∃ t, takeCommand 0x13120000 sample = .next t ∧ t.faulted = false) ∧
    (∃ t, takeCommand 0x54135000 sample = .next t ∧ t.faulted = true) ∧
    (∃ t, takeCommand 0x13120000 { sample with ci := 0xFFFFFFFF } = .next t ∧ t.faulted = false) ∧
    ∃ t, takeEvent (.hostReadReg 1) sample = .next t :=
  ⟨⟨_, rfl, rfl⟩, ⟨_, rfl, by decide⟩, ⟨_, rfl, rfl⟩, _, rfl⟩

theorem witness_RegistersAndStatusChangeOnlyByTheirWriters :
    (∃ t, takeEvent (.command 0x13120000) sample = .next t ∧ t.mark 4 = sample.mark 4 ∧ t.x 3 = sample.x 3 ∧
      t.ci ≠ sample.ci) ∧
    (∃ t, takeEvent (.command 0x14220000) sample = .next t ∧ t.mark 4 ≠ sample.mark 4) ∧
    (∃ t, takeEvent (.hostWriteReg 1 5) sampleFaulted = .next t ∧ t.x 1 ≠ sampleFaulted.x 1) ∧
    ∃ t, takeEvent .reset sample = .next t ∧ t.mark 1 ≠ sample.mark 1 :=
  ⟨⟨_, rfl, by decide⟩, ⟨_, rfl, by decide⟩, ⟨_, rfl, by decide⟩, _, rfl, by decide⟩

theorem witness_DecodeOfEncodeIsIdentity : (Instr.mulx 15 0 15 0).wellFormed = true := by decide

theorem witness_EncodeOfDecodeIsIdentity : decode 0x5F0FE000 = .ok (.divmod 15 14 0 15) := by decide

theorem witness_IllegalWordsAreThoseOfR59 :
    sample.faulted = false ∧ decode 0x7FFFFFFF = .error .nonzeroZeroField ∧ decode 0x6FFFF000 = .error .reservedOpcode := by
  decide

theorem witness_StepRunsPresentedCommand :
    (sample.withInputs [.command 0x13120000, .reset]).inputs = .command 0x13120000 :: [.reset] ∧
    (sample.withInputs [.command 0x13120000]).faulted = false ∧ decode 0x13120000 = .ok (.add 3 1 2) ∧
    decode 0x13121000 = .error .nonzeroRd2 ∧ (sampleFaulted.withInputs [.command 0x13120000]).faulted = true := by decide

theorem witness_PlacedWordRunsNext : sample.faulted = false ∧ (Instr.divmod 4 5 1 2).wellFormed = true := by decide

theorem witness_StepAlwaysAnswersAndTakesOneInput : sample.inputs = [] := by decide

theorem witness_MulxCompletes : (4 : RegNum) ≠ 5 ∧ (15 : RegNum) = 15 := by decide

theorem witness_DivmodCompletes :
    (4 : RegNum) ≠ 5 ∧ sample.x 2 % 2 ^ sample.cfg.divW.bits ≠ 0 ∧ sample.x 3 % 2 ^ sample.cfg.divW.bits = 0 ∧
    (loaded cfgS [(1, 0x0100)]).x 1 % 2 ^ cfgS.divW.bits = 0 := by decide

theorem witness_AddRule :
    sample.faulted = false ∧ 0x1F120000#32 &&& 0xF000FFFF#32 = 0x10000000#32 ∧
    slice (0x1F120000#32).toNat 24 4 = (15 : RegNum).val ∧ slice (0x1F120000#32).toNat 20 4 = (1 : RegNum).val ∧
    slice (0x1F120000#32).toNat 16 4 = (2 : RegNum).val ∧ sample.mark 1 = true ∧ sample.mark 2 = true := by decide

theorem witness_SubRule :
    sample.faulted = false ∧ 0x21120000#32 &&& 0xF000FFFF#32 = 0x20000000#32 ∧
    slice (0x21120000#32).toNat 24 4 = (1 : RegNum).val ∧ slice (0x21120000#32).toNat 20 4 = (1 : RegNum).val ∧
    slice (0x21120000#32).toNat 16 4 = (2 : RegNum).val := by decide

theorem witness_MulRule :
    sample.faulted = false ∧ 0x30FF0000#32 &&& 0xF000FFFF#32 = 0x30000000#32 ∧
    slice (0x30FF0000#32).toNat 24 4 = (0 : RegNum).val ∧ slice (0x30FF0000#32).toNat 20 4 = (15 : RegNum).val ∧
    slice (0x30FF0000#32).toNat 16 4 = (15 : RegNum).val ∧ sample.mark 15 = false := by decide

theorem witness_MulxRule :
    sample.faulted = false ∧ 0x41122000#32 &&& 0xF0000FFF#32 = 0x40000000#32 ∧
    slice (0x41122000#32).toNat 24 4 = (1 : RegNum).val ∧ slice (0x41122000#32).toNat 20 4 = (1 : RegNum).val ∧
    slice (0x41122000#32).toNat 16 4 = (2 : RegNum).val ∧ slice (0x41122000#32).toNat 12 4 = (2 : RegNum).val ∧
    (1 : RegNum) ≠ 2 ∧ 0x4F12F000#32 &&& 0xF0000FFF#32 = 0x40000000#32 ∧
    slice (0x4F12F000#32).toNat 24 4 = (15 : RegNum).val ∧ slice (0x4F12F000#32).toNat 12 4 = (15 : RegNum).val := by decide

theorem witness_DivmodRule :
    sample.faulted = false ∧ 0x54125000#32 &&& 0xF0000FFF#32 = 0x50000000#32 ∧
    slice (0x54125000#32).toNat 24 4 = (4 : RegNum).val ∧ slice (0x54125000#32).toNat 20 4 = (1 : RegNum).val ∧
    slice (0x54125000#32).toNat 16 4 = (2 : RegNum).val ∧ slice (0x54125000#32).toNat 12 4 = (5 : RegNum).val ∧
    (4 : RegNum) ≠ 5 ∧ slice (sample.x 2) 0 sample.cfg.divW.bits ≠ 0 ∧ slice (sample.x 3) 0 sample.cfg.divW.bits = 0 ∧
    0x50000000#32 &&& 0xF0000FFF#32 = 0x50000000#32 ∧ Event.hostReadReg 1 ≠ .reset := by decide

theorem witness_DivisionIdentity :
    (4 : RegNum) ≠ 5 ∧ 0xFF = sample.x 1 % 2 ^ sample.cfg.divW.bits ∧ 1 = sample.x 2 % 2 ^ sample.cfg.divW.bits ∧
    (1 : Nat) ≠ 0 ∧ ∃ t, exec (.divmod 4 5 1 2) sample = .next t :=
  ⟨by decide, by decide, by decide, by decide, _, rfl⟩

theorem witness_AliasingNeverChangesAResult :
    (1 : RegNum) ≠ 2 ∧ (4 : RegNum) ≠ 5 ∧ (∃ t, exec (.mulx 1 2 1 2) sample = .next t) ∧
    (∃ t, exec (.mulx 4 5 1 2) sample = .next t) ∧ (∃ t, exec (.add 1 1 1) sample = .next t) ∧
    sample.x 2 % 2 ^ sample.cfg.divW.bits ≠ 0 :=
  ⟨by decide, by decide, ⟨_, rfl⟩, ⟨_, rfl⟩, ⟨_, rfl⟩, by decide⟩

theorem witness_CarryDetection : 0xFF < 2 ^ 8 ∧ 0x01 < 2 ^ 8 ∧ 0 < 2 ^ 0 := by decide

theorem witness_BorrowDetection : 0x00 < 2 ^ 8 ∧ 0xFF < 2 ^ 8 ∧ 0 < 2 ^ 0 := by decide

theorem witness_AddSubLaws :
    0xFFFF < 2 ^ cfgS.n ∧ loHalf (cfgS.n / 2) 0xFFFF = 2 ^ (cfgS.n / 2) - 1 ∧ loHalf (cfgS.n / 2) 0x0000 = 0 := by decide

theorem witness_MultiplyLaws : (4 : RegNum) ≠ 5 ∧ sample.x 2 = 1 ∧ sample.x 3 = 0 := by decide

theorem witness_RecursiveAddIsModularAdd :
    2 ^ 256 - 1 < 2 ^ widthAt NativeWidth.w64.bits 2 ∧ 0xFF < 2 ^ widthAt NativeWidth.w8.bits 0 := by decide

theorem witness_RecursiveSubIsModularSub : 0 < 2 ^ widthAt NativeWidth.w8.bits 1 ∧ 0xFFFF < 2 ^ widthAt NativeWidth.w8.bits 1 := by
  decide

theorem witness_SchoolbookBounds : 1 ≤ 8 ∧ 0xFFFF < 2 ^ (2 * 8) ∧ ∃ st, st = schoolSteps widening 8 0xFFFF 0xFFFF :=
  ⟨by decide, by decide, _, rfl⟩

theorem witness_SchoolbookProductIsExact : 2 ^ 64 - 1 < 2 ^ widthAt NativeWidth.w64.bits 0 := by decide

theorem witness_TruncatedProductIsModular : 0x12345678 < 2 ^ widthAt NativeWidth.w16.bits 1 := by decide

theorem witness_CommandsEqualReferenceAlgorithms : (0 : RegNum) ≠ 15 := by decide

theorem witness_LeafWidthAndLayoutAreInvisible :
    SameButLayout (State.resetFor ⟨.w8, 2, .production, .w8, by decide⟩) (State.resetFor ⟨.w16, 1, .test, .w8, by decide⟩) ∧
    ∃ t, takeCommand 0x13120000 (State.resetFor ⟨.w8, 2, .production, .w8, by decide⟩) = .next t :=
  ⟨by unfold SameButLayout SameStatus; decide, _, rfl⟩

theorem witness_FaultsExactlyWhenTheSpecSays :
    sample.faulted = false ∧ decode 0 = .error .reservedOpcode ∧ decode 0x54135000 = .ok (.divmod 4 5 1 3) ∧
    sample.x 3 % 2 ^ sample.cfg.divW.bits = 0 ∧ ∃ t, takeCommand 0x54135000 sample = .next t ∧ t.faulted = true :=
  ⟨by decide, by decide, by decide, by decide, _, rfl, by decide⟩

theorem witness_OverflowIsNeverAFault :
    sample.faulted = false ∧ decode 0x14120000 = .ok (.add 4 1 2) ∧
    (∀ rd rd2 rs1 rs2, Instr.add 4 1 2 ≠ .divmod rd rd2 rs1 rs2) ∧ ∃ t, takeCommand 0x14120000 sample = .next t :=
  ⟨by decide, by decide, (fun _ _ _ _ h => by cases h), _, rfl⟩

theorem witness_FaultPriority :
    sampleFaulted.faulted = true ∧ sample.faulted = false ∧ decode 0x50000000 = .error .equalDestinations ∧
    decode 0x5451F000 = .ok (.divmod 4 15 5 1) ∧ (5 : RegNum) ∈ sources (.divmod 4 15 5 1) ∧ sample.mark 5 = false ∧
    (∀ r ∈ sources (.divmod 4 5 1 3), sample.mark r = true) ∧ sample.x 3 % 2 ^ sample.cfg.divW.bits = 0 ∧
    (∀ r ∈ sources (.divmod 4 5 1 2), sample.mark r = true) ∧ sample.x 2 % 2 ^ sample.cfg.divW.bits ≠ 0 := by decide

theorem witness_FaultedBlockDiscardsCommands : sampleFaulted.faulted = true ∧ 2 ^ 16 - 1 < 2 ^ sampleFaulted.cfg.n := by decide

theorem witness_FirstFaultStaysUntilReset :
    sampleFaulted.faulted = true ∧ Event.reset ∉ [Event.command 0x13120000, .hostReadCsr 0] := by decide

theorem witness_LatchInvariantKept :
    LatchInv (sample.withInputs [.command 0x54135000]) ∧
    (∃ t, step (sample.withInputs [.command 0x54135000]) = .next t ∧ t.cause = 2) ∧
    LatchInv sampleFaulted ∧ ∃ t, step sampleFaulted = .next t :=
  ⟨⟨fun _ => ⟨rfl, rfl, rfl⟩, fun h => by cases h⟩, ⟨_, rfl, by decide⟩,
    ⟨fun h => (by cases h), fun _ => ⟨rfl, .inl ⟨rfl, .nonzeroRd2, by decide⟩⟩⟩, _, rfl⟩

theorem witness_CheckedRunsAreHardwareRuns : ∃ t, checkedRun [.command 0x13120000] sample = .next t := ⟨_, rfl⟩

theorem witness_UnwrittenContentsAreInvisible :
    SameButUnwritten sample { sample with regs := sample.regs.set 7 9 } ∧
    ({ sample with regs := sample.regs.set 7 9 } : State).x 7 ≠ sample.x 7 ∧
    ∃ t, checkedRun [.command 0x13120000, .reset] sample = .next t :=
  ⟨by unfold SameButUnwritten SameStatus; decide, by decide, _, rfl⟩

theorem witness_CommandIndexCountsTheRun :
    sample.ci = BitVec.ofNat 32 (2 ^ 32) ∧ (∃ t, run [.command 0x13120000] sample = .next t ∧ t.faulted = false) ∧
    ∃ t, checkedRun [.hostWriteReg 1 1, .command 0x13110000] (State.resetFor cfgS) = .next t ∧ t.faulted = false :=
  ⟨by decide, ⟨_, rfl, rfl⟩, _, rfl, rfl⟩

theorem witness_PseudoInstructionsExpand : (0 : RegNum) ≠ 15 ∧ (7 : RegNum) = 7 := by decide

theorem witness_AssembledCommandsAreLegal :
    (AsmStmt.sqrx 1 2 3).expand = .inl (.mulx 1 2 3 3) ∧ (AsmStmt.sqrx 1 2 3).assemble = .ok 0x41332000 ∧
    (AsmStmt.mulx 1 1 2 3).assemble = .error .equalDestinations := ⟨rfl, by decide, by decide⟩

end Sys2Proof.Tests
end

section
/-! PROOFS. The parameters of the block (00_scope.md section 4): the widths that every legal choice of them gives, and the
two parameters, W_LEAF and MUL_LAYOUT, that no presented word can tell (R78). -/

/-! ### The widths of a legal configuration -/

namespace Sys2Proof

theorem NativeWidth.three_le_log2 (w : NativeWidth) : 3 ≤ w.log2 := by cases w <;> decide

/-- A native width other than 8 is at least 16 (R7). -/
theorem NativeWidth.sixteen_le_bits {w : NativeWidth} (h : w ≠ .w8) : 16 ≤ w.bits := by
  cases w with
  | w8 => exact absurd rfl h
  | w16 | w32 | w64 => decide

/-- A leaf of at least 8 bits and one composite level make a register of at least 16 bits (R7, R8). -/
theorem Config.four_le_log2N (c : Config) : 4 ≤ c.log2N := by
  obtain ⟨hdepth, -, -, -⟩ := c.legal
  have hleaf := c.wLeaf.three_le_log2
  unfold Config.log2N
  omega

/-- Settles O1, from the conditions a `Config` carries and the power-of-two form of N. -/
theorem instanceWidths : Obligations.InstanceWidths := by
  refine ⟨fun c => ?_, by decide⟩
  obtain ⟨hdepth, hlog2N, hlayout, -⟩ := c.legal
  exact ⟨rfl, hdepth, c.n_eq_two_pow, c.four_le_log2N, hlog2N, c.divBits_le,
    fun htest => NativeWidth.sixteen_le_bits (hlayout htest)⟩

end Sys2Proof

/-! ### States alike but for W_LEAF and MUL_LAYOUT

`SameButLayout` fixes N, DIV_W and all that is not a parameter. Every operation a command is built from keeps it, since
each reads of the parameters N and DIV_W alone. -/

namespace Sys2Proof.Machine

/-- CONFIG is the only status register that the components of `SameStatus` do not determine (R26, R31). -/
theorem SameStatus.csr_eq {s t : State} (h : SameStatus s t) {a : BitVec 8} (ha : a ≠ 0x04#8) : s.csr a = t.csr a := by
  obtain ⟨hci, hfaulted, hcause, hfaultCi, hfaultCmd⟩ := h
  simp [State.csr, State.status, hci, hfaulted, hcause, hfaultCi, hfaultCmd, ha]

namespace SameButLayout

variable {s s' : State}

theorem n_eq (h : SameButLayout s s') : s.cfg.n = s'.cfg.n := h.1

theorem x_eq (h : SameButLayout s s') (r : RegNum) : s.x r = s'.x r :=
  have ⟨_, _, hregs, _⟩ := h
  (hregs r).1

theorem status (h : SameButLayout s s') : SameStatus s s' :=
  have ⟨_, _, _, hstatus, _⟩ := h
  hstatus

theorem faulted_eq (h : SameButLayout s s') : s'.faulted = s.faulted :=
  have ⟨_, hfaulted, _⟩ := h.status
  hfaulted

theorem nativeSource_eq (h : SameButLayout s s') (r : RegNum) : s.nativeSource r = s'.nativeSource r := by
  have ⟨_, hdivW, _⟩ := h
  rw [State.nativeSource, State.nativeSource, h.x_eq, hdivW]

theorem writeReg (h : SameButLayout s s') (rd : RegNum) (v : Nat) :
    SameButLayout (s.writeReg rd v) (s'.writeReg rd v) := by
  obtain ⟨hn, hdivW, hregs, hrest⟩ := h
  refine ⟨hn, hdivW, fun r => ?_, hrest⟩
  obtain ⟨hx, hmark⟩ := hregs r
  simp only [State.x_writeReg, State.mark_writeReg, hn, hx, hmark, and_self]

theorem advanceCi (h : SameButLayout s s') : SameButLayout s.advanceCi s'.advanceCi := by
  obtain ⟨hn, hdivW, hregs, ⟨hci, hlatch⟩, hrest⟩ := h
  exact ⟨hn, hdivW, hregs, ⟨congrArg (· + 1) hci, hlatch⟩, hrest⟩

theorem raise (h : SameButLayout s s') (e : Exn) (w : Word) : SameButLayout (s.raise e w) (s'.raise e w) := by
  obtain ⟨hn, hdivW, hregs, ⟨hci, -⟩, hrest⟩ := h
  exact ⟨hn, hdivW, hregs, ⟨hci, rfl, rfl, hci, rfl⟩, hrest⟩

theorem completeOne (h : SameButLayout s s') (rd : RegNum) (v : Nat) :
    SameButLayout (s.completeOne rd v) (s'.completeOne rd v) :=
  (h.writeReg rd v).advanceCi

theorem completeTwo (h : SameButLayout s s') (rd : RegNum) (v : Nat) (rd2 : RegNum) (v2 : Nat) :
    SameButLayout (s.completeTwo rd v rd2 v2) (s'.completeTwo rd v rd2 v2) :=
  ((h.writeReg rd v).writeReg rd2 v2).advanceCi

end SameButLayout

/-- Two outcomes that are next states, alike but for W_LEAF and MUL_LAYOUT. -/
def NextSameButLayout (o o' : Host.Outcome State Fault Refusal) : Prop :=
  ∃ t t', o = .next t ∧ o' = .next t' ∧ SameButLayout t t'

theorem SameButLayout.next {t t' : State} (h : SameButLayout t t') : NextSameButLayout (.next t) (.next t') :=
  ⟨t, t', rfl, rfl, h⟩

section
variable {s s' : State} (h : SameButLayout s s') (rd rd2 rs1 rs2 : RegNum)
include h

theorem execAdd_sameButLayout : NextSameButLayout (execAdd rd rs1 rs2 s) (execAdd rd rs1 rs2 s') := by
  simpa only [execAdd, State.source, h.n_eq, h.x_eq] using (h.completeOne rd _).next

theorem execSub_sameButLayout : NextSameButLayout (execSub rd rs1 rs2 s) (execSub rd rs1 rs2 s') := by
  simpa only [execSub, State.source, h.n_eq, h.x_eq] using (h.completeOne rd _).next

theorem execMul_sameButLayout : NextSameButLayout (execMul rd rs1 rs2 s) (execMul rd rs1 rs2 s') := by
  simpa only [execMul, State.source, h.n_eq, h.x_eq] using (h.completeOne rd _).next

theorem execMulx_sameButLayout : NextSameButLayout (execMulx rd rd2 rs1 rs2 s) (execMulx rd rd2 rs1 rs2 s') := by
  by_cases hd : rd = rd2
  · subst hd
    rw [execMulx_equal, execMulx_equal]
    exact (h.raise .illegalCommand _).next
  · rw [execMulx_distinct hd, execMulx_distinct hd, h.n_eq, h.x_eq, h.x_eq]
    exact (h.completeTwo rd _ rd2 _).next

theorem execDivmod_sameButLayout :
    NextSameButLayout (execDivmod rd rd2 rs1 rs2 s) (execDivmod rd rd2 rs1 rs2 s') := by
  have hb := h.nativeSource_eq rs2
  by_cases hd : rd = rd2
  · subst hd
    rw [execDivmod_equal, execDivmod_equal]
    exact (h.raise .illegalCommand _).next
  · by_cases h0 : s.nativeSource rs2 = 0
    · rw [execDivmod_zero hd rs1 h0, execDivmod_zero hd rs1 (hb ▸ h0)]
      exact (h.raise .divideByZero _).next
    · rw [execDivmod_nonzero hd rs1 h0, execDivmod_nonzero hd rs1 (hb ▸ h0), hb, h.nativeSource_eq rs1]
      exact (h.completeTwo rd _ rd2 _).next

theorem exec_sameButLayout (i : Instr) : NextSameButLayout (exec i s) (exec i s') := by
  cases i with
  | add rd rs1 rs2 => exact execAdd_sameButLayout h rd rs1 rs2
  | sub rd rs1 rs2 => exact execSub_sameButLayout h rd rs1 rs2
  | mul rd rs1 rs2 => exact execMul_sameButLayout h rd rs1 rs2
  | mulx rd rd2 rs1 rs2 => exact execMulx_sameButLayout h rd rd2 rs1 rs2
  | divmod rd rd2 rs1 rs2 => exact execDivmod_sameButLayout h rd rd2 rs1 rs2

/-- A presented word is discarded, refused or run in both of two such states, to the same effect (R78). -/
theorem takeCommand_sameButLayout (w : Word) : NextSameButLayout (takeCommand w s) (takeCommand w s') := by
  cases hf : s.faulted with
  | true =>
    rw [takeCommand_faulted hf, takeCommand_faulted (h.faulted_eq.trans hf)]
    exact h.next
  | false =>
    have hf' := h.faulted_eq.trans hf
    cases hd : decode w with
    | error e =>
      rw [takeCommand_illegal hf hd, takeCommand_illegal hf' hd]
      exact (h.raise .illegalCommand w).next
    | ok i =>
      rw [takeCommand_legal hf hd, takeCommand_legal hf' hd]
      exact exec_sameButLayout h i

end

/-- Settles O42: a presented word keeps `SameButLayout`, which fixes every status register but CONFIG. -/
theorem leafWidthAndLayoutAreInvisible : Obligations.LeafWidthAndLayoutAreInvisible := by
  intro s s' t w h ht
  obtain ⟨u, t', hu, ht', hsame⟩ := takeCommand_sameButLayout h w
  obtain rfl : t = u := Host.Outcome.next.inj (ht.symm.trans hu)
  exact ⟨t', ht', hsame, fun _ ha => hsame.status.csr_eq ha⟩

end Sys2Proof.Machine
end

section
/-! PROOFS. The state and who changes it (10_state.md): what a presented word can do, the fault latch, the command index,
the status words, the composite tree of a register, and registers that were never written. -/

/-! ### A decoded word is the word of its command (R56, R59) -/

namespace Sys2Proof

/-- What a word that decodes has: the fields of its command, and destinations that differ where R59 asks it. -/
theorem encode_and_wellFormed_of_decode {w : Word} {i : Instr} (h : decode w = .ok i) :
    encode i = w ∧ i.wellFormed = true := by
  unfold decode at h
  split_ifs at h with hzero hop hrd2 hop hrd2 hop hrd2 hop hrd hop hrd
  all_goals
    obtain rfl := Except.ok.inj h
    have hw := packR4_fields (not_not.mp hzero)
    rw [hop] at hw
  case neg | neg | neg =>
    rw [not_not.mp hrd2] at hw
    exact ⟨hw, rfl⟩
  case neg | neg => exact ⟨hw, bne_iff_ne.mpr fun h => hrd (congrArg fieldOf h)⟩

theorem encode_of_decode {w : Word} {i : Instr} (h : decode w = .ok i) : encode i = w :=
  (encode_and_wellFormed_of_decode h).1

theorem wellFormed_of_decode {w : Word} {i : Instr} (h : decode w = .ok i) : i.wellFormed = true :=
  (encode_and_wellFormed_of_decode h).2

end Sys2Proof

/-! ### Parameters (R7, R8) -/

namespace Sys2Proof

theorem NativeWidth.log2_le_six (w : NativeWidth) : w.log2 ≤ 6 := by cases w <;> decide

/-- Half a register is as wide as a part of its tree (R8, R19). -/
theorem Config.half_n {c : Config} {k : Nat} (hk : c.depth = k + 1) : c.n / 2 = Machine.widthAt c.wLeaf.bits k := by
  rw [c.n_eq, hk, Machine.widthAt_succ]
  omega

end Sys2Proof

/-! ### What a presented word can do -/

namespace Sys2Proof.Machine

/-- What the block may do with a presented word, by the order of R62 and R94. -/
inductive CommandOutcome (w : Word) (s t : State) : Prop where
  /-- The block is faulted and discards the word (R96). -/
  | discarded (hfaulted : s.faulted = true) (hsame : t = s)
  /-- The word is illegal and raises ILLEGAL_COMMAND (R90). -/
  | illegal (hfaulted : s.faulted = false) (e : DecodeError) (hdecode : decode w = .error e) (hraised : Raised 1 w s t)
  /-- The word's command completes (R62). -/
  | completes (hfaulted : s.faulted = false) (i : Instr) (hdecode : decode w = .ok i)
      (hcompleted : Completed (destinations i) s t)
  /-- The word is a DIVMOD whose divisor is 0, and raises DIVIDE_BY_ZERO (R87). -/
  | dividesByZero (hfaulted : s.faulted = false) (rd rd2 rs1 rs2 : RegNum)
      (hdecode : decode w = .ok (.divmod rd rd2 rs1 rs2)) (hzero : s.nativeSource rs2 = 0) (hraised : Raised 2 w s t)

theorem takeCommand_answers (w : Word) (s : State) : ∃ t, takeCommand w s = .next t ∧ CommandOutcome w s t := by
  cases hf : s.faulted with
  | true => exact ⟨s, takeCommand_faulted hf w, .discarded hf rfl⟩
  | false =>
    cases hd : decode w with
    | error e => exact ⟨_, takeCommand_illegal hf hd, .illegal hf e hd (raised_raise s .illegalCommand w)⟩
    | ok i =>
      rw [takeCommand_legal hf hd]
      have hencode := encode_of_decode hd
      obtain ⟨t, hexec, ⟨-, hc⟩ | ⟨hill, -⟩ | ⟨rd, rd2, rs1, rs2, rfl, -, hzero, hr⟩⟩ := exec_cases i s
      · exact ⟨t, hexec, .completes hf i hd hc⟩
      · rw [wellFormed_of_decode hd] at hill
        cases hill
      · exact ⟨t, hexec, .dividesByZero hf rd rd2 rs1 rs2 hd hzero (hencode ▸ hr)⟩

theorem takeCommand_outcome {w : Word} {s t : State} (h : takeCommand w s = .next t) : CommandOutcome w s t := by
  obtain ⟨u, hu, hout⟩ := takeCommand_answers w s
  obtain rfl : t = u := Host.Outcome.next.inj (h.symm.trans hu)
  exact hout

/-! ### The fault latch (R27, R29, R30, R95) -/

section latch

variable {w : Word} {s t : State}

theorem SameStatus.refl (s : State) : SameStatus s s := ⟨rfl, rfl, rfl, rfl, rfl⟩

/-- The invariant speaks of the status registers alone. -/
theorem SameStatus.latchInv (h : SameStatus s t) (hs : LatchInv s) : LatchInv t := by
  obtain ⟨hci, hfaulted, hcause, hfaultCi, hfaultCmd⟩ := h
  simpa only [LatchInv, hci, hfaulted, hcause, hfaultCi, hfaultCmd] using hs

/-- A state that is not faulted meets the invariant where the three registers of the latch read 0. -/
theorem latchInv_of_clear (hfaulted : s.faulted = false) (hcause : s.cause = 0) (hfaultCi : s.faultCi = 0)
    (hfaultCmd : s.faultCmd = 0) : LatchInv s :=
  ⟨fun _ => ⟨hcause, hfaultCi, hfaultCmd⟩, fun h => Bool.noConfusion (hfaulted.symm.trans h)⟩

theorem Completed.latchInv {ds : List RegNum} (h : Completed ds s t) (hf : s.faulted = false) (hs : LatchInv s) :
    LatchInv t := by
  obtain ⟨-, -, -, hfaulted, hcause, hfaultCi, hfaultCmd, -⟩ := h
  obtain ⟨hclear, -⟩ := hs
  obtain ⟨hcause0, hfaultCi0, hfaultCmd0⟩ := hclear hf
  exact latchInv_of_clear (hfaulted.trans hf) (hcause.trans hcause0) (hfaultCi.trans hfaultCi0)
    (hfaultCmd.trans hfaultCmd0)

/-- A fault entry meets the invariant where its cause fits its word (R89). -/
theorem Raised.latchInv {code : BitVec 4} (h : Raised code w s t)
    (hcode : (code = 1 ∧ ∃ e, decode w = .error e) ∨
      (code = 2 ∧ ∃ rd rd2 rs1 rs2, decode w = .ok (.divmod rd rd2 rs1 rs2))) : LatchInv t := by
  obtain ⟨hfaulted, hcause, hfaultCi, hfaultCmd, hci, -, -⟩ := h
  refine ⟨fun hf => Bool.noConfusion (hfaulted.symm.trans hf), fun _ => ⟨hfaultCi.trans hci.symm, ?_⟩⟩
  rwa [hcause, hfaultCmd]

theorem CommandOutcome.latchInv (h : CommandOutcome w s t) (hs : LatchInv s) : LatchInv t := by
  cases h with
  | discarded _ hsame => rwa [hsame]
  | illegal _ e hdecode hraised => exact hraised.latchInv (.inl ⟨rfl, e, hdecode⟩)
  | completes hf _ _ hcompleted => exact hcompleted.latchInv hf hs
  | dividesByZero _ rd rd2 rs1 rs2 hdecode _ hraised => exact hraised.latchInv (.inr ⟨rfl, rd, rd2, rs1, rs2, hdecode⟩)

theorem takeEvent_latchInv {e : Event} (h : takeEvent e s = .next t) (hs : LatchInv s) : LatchInv t := by
  cases e with
  | command w => exact (takeCommand_outcome h).latchInv hs
  | hostWriteReg | hostReadReg | hostReadCsr =>
    obtain rfl := Host.Outcome.next.inj h
    exact SameStatus.latchInv (SameStatus.refl s) hs
  | reset =>
    obtain rfl := Host.Outcome.next.inj h
    exact latchInv_of_clear rfl rfl rfl rfl

end latch

/-- Settles O48: a step is idle or takes one input, and every input keeps the invariant. -/
theorem latchInvariantKept : Obligations.LatchInvariantKept := by
  intro s t hs h
  cases hin : s.inputs with
  | nil =>
    obtain rfl := Host.Outcome.next.inj ((step_idle hin).symm.trans h)
    exact hs
  | cons e es => exact takeEvent_latchInv ((step_cons hin).symm.trans h) (SameStatus.latchInv (SameStatus.refl s) hs)

/-- Settles O49: right after reset the block is not faulted and the latch is clear. -/
theorem latchInvariantAtReset : Obligations.LatchInvariantAtReset := fun _ => latchInv_of_clear rfl rfl rfl rfl

/-! ### The command index (R23, R24) -/

theorem CommandOutcome.ci {w : Word} {s t : State} (h : CommandOutcome w s t) :
    (t.faulted = false ∧ t.ci = s.ci + 1) ∨ (t.faulted = true ∧ t.ci = s.ci) := by
  cases h with
  | discarded hf hsame => exact .inr ⟨hsame ▸ hf, hsame ▸ rfl⟩
  | completes hf _ _ hcompleted =>
    obtain ⟨hci, -, -, hfaulted, -⟩ := hcompleted
    exact .inl ⟨hfaulted.trans hf, hci⟩
  | illegal _ _ _ hraised | dividesByZero _ _ _ _ _ _ _ hraised =>
    obtain ⟨hfaulted, -, -, -, hci, -⟩ := hraised
    exact .inr ⟨hfaulted, hci⟩

/-- Settles O9, by the two ways a presented word may end and by what each port operation leaves. -/
theorem commandIndexCounts : Obligations.CommandIndexCounts := by
  refine ⟨fun s t w h => ?_, fun s t e h => ?_⟩
  · obtain ⟨hf, hci⟩ | ⟨hf, hci⟩ := (takeCommand_outcome h).ci
    · simp [hf, hci, BitVec.toNat_add]
    · simp [hf, hci]
  · cases e with
    | command w => exact ⟨fun hreset => Event.noConfusion hreset, fun _ hne => absurd rfl (hne w)⟩
    | hostWriteReg | hostReadReg | hostReadCsr | reset =>
      obtain rfl := Host.Outcome.next.inj h
      simp

/-! ### Who changes a register, a mark or a status register (R21, R26, R49) -/

section writers

variable {w : Word} {s t : State} {r : RegNum}

theorem SameRegsBut.mem_of_ne {ds : List RegNum} (h : SameRegsBut ds s t)
    (hne : t.x r ≠ s.x r ∨ t.mark r ≠ s.mark r) : r ∈ ds := by
  by_contra hr
  obtain ⟨hx, hmark⟩ := h r hr
  exact hne.elim (· hx) (· hmark)

theorem sameRegsBut_hostWriteReg (s : State) (r : RegNum) (v : Nat) : SameRegsBut [r] s (s.hostWriteReg r v) := by
  intro q hq
  simp only [List.mem_singleton] at hq
  simp [State.hostWriteReg, State.x_writeReg, State.mark_writeReg, hq]

theorem CommandOutcome.cfg_eq (h : CommandOutcome w s t) : t.cfg = s.cfg := by
  cases h with
  | discarded _ hsame => rw [hsame]
  | completes _ _ _ hcompleted =>
    obtain ⟨-, -, -, -, -, -, -, hcfg, -⟩ := hcompleted
    exact hcfg
  | illegal _ _ _ hraised | dividesByZero _ _ _ _ _ _ _ hraised =>
    obtain ⟨-, -, -, -, -, -, hcfg, -⟩ := hraised
    exact hcfg

/-- A presented word changes a register or its mark only where its command names it and completes (R62, R95). -/
theorem CommandOutcome.writer_of_ne (h : CommandOutcome w s t) (hne : t.x r ≠ s.x r ∨ t.mark r ≠ s.mark r) :
    ∃ i, s.faulted = false ∧ decode w = .ok i ∧ r ∈ destinations i ∧ t.faulted = false := by
  cases h with
  | discarded _ hsame =>
    subst hsame
    simp at hne
  | completes hf i hdecode hcompleted =>
    obtain ⟨-, -, hregs, hfaulted, -⟩ := hcompleted
    exact ⟨i, hf, hdecode, hregs.mem_of_ne hne, hfaulted.trans hf⟩
  | illegal _ _ _ hraised | dividesByZero _ _ _ _ _ _ _ hraised =>
    obtain ⟨-, -, -, -, -, hregs, -⟩ := hraised
    exact absurd (hregs.mem_of_ne hne) List.not_mem_nil

/-- A faulted block discards the word, so one that changes a status register was taken while not faulted (R96). -/
theorem CommandOutcome.not_faulted_of_not_sameStatus (h : CommandOutcome w s t) (hne : ¬ SameStatus s t) :
    s.faulted = false := by
  cases h with
  | discarded _ hsame => exact absurd (hsame ▸ SameStatus.refl s) hne
  | illegal hf | completes hf | dividesByZero hf => exact hf

end writers

/-- Settles O11, input by input. -/
theorem registersAndStatusChangeOnlyByTheirWriters : Obligations.RegistersAndStatusChangeOnlyByTheirWriters := by
  intro s t e h
  cases e with
  | command w =>
    have hout := takeCommand_outcome h
    refine ⟨fun r hne => ?_, fun hne => .inr ⟨w, rfl, hout.not_faulted_of_not_sameStatus hne⟩, hout.cfg_eq⟩
    obtain ⟨i, hi⟩ := hout.writer_of_ne hne
    exact .inr (.inr ⟨w, i, rfl, hi⟩)
  | hostWriteReg q v =>
    obtain rfl := Host.Outcome.next.inj h
    refine ⟨fun r hne => ?_, fun hne => absurd (SameStatus.refl s) hne, rfl⟩
    obtain rfl := List.mem_singleton.mp ((sameRegsBut_hostWriteReg s q v).mem_of_ne hne)
    exact .inr (.inl ⟨v, rfl⟩)
  | hostReadReg | hostReadCsr =>
    obtain rfl := Host.Outcome.next.inj h
    exact ⟨fun r hne => by simp at hne, fun hne => absurd (SameStatus.refl s) hne, rfl⟩
  | reset =>
    obtain rfl := Host.Outcome.next.inj h
    exact ⟨fun _ _ => .inl rfl, fun _ => .inl rfl, s.takeReset_cfg⟩

/-! ### The words of STATUS and CONFIG (R27, R31, R36) -/

theorem State.csr_status (s : State) : s.csr 0x00#8 = s.status := rfl

theorem State.csr_config (s : State) : s.csr 0x04#8 = configWord s.cfg := rfl

/-- Appending bit vectors is placing one above the other. -/
theorem toNat_append {m n : Nat} (a : BitVec m) (b : BitVec n) : (a ++ b).toNat = a.toNat * 2 ^ n + b.toNat := by
  rw [BitVec.toNat_append, ← Nat.shiftLeft_add_eq_or_of_lt b.isLt, Nat.shiftLeft_eq]

theorem State.status_toNat (s : State) : s.status.toNat = s.cause.toNat * 2 ^ 4 + s.faulted.toNat := by
  simp only [State.status, toNat_append, BitVec.toNat_ofNat, BitVec.toNat_ofBool]
  omega

/-- Settles O2, from the value of STATUS as a number. -/
theorem statusWordLayout : Obligations.StatusWordLayout := by
  intro s
  have hcause := s.cause.isLt
  have hfaulted := s.faulted.toNat_lt
  have hbit : slice s.status.toNat 0 1 = s.faulted.toNat := by
    rw [slice, s.status_toNat]
    omega
  rw [s.csr_status, hbit]
  refine ⟨rfl, ?_, ?_, ?_, by simp [State.faultOut]⟩
  all_goals
    rw [slice, s.status_toNat]
    omega

/-- Settles O7, field by field; the status words follow. -/
theorem resetValues : Obligations.ResetValues := by
  intro c
  refine ⟨State.resetFor_mark c, rfl, rfl, rfl, rfl, rfl, rfl, rfl, fun a ha => ?_⟩
  have hconfig : a ≠ 0x04#8 := by
    rintro rfl
    exact absurd ha (by decide)
  simp [State.csr, hconfig, State.status]

theorem layoutBit_toNat_eq_one_iff (l : MulLayout) : (layoutBit l).toNat = 1 ↔ l = .test := by cases l <;> decide

theorem configWord_toNat (c : Config) : (configWord c).toNat = (layoutBit c.mulLayout).toNat * 2 ^ 21 + 16 * 2 ^ 16 +
    c.divW.log2 * 2 ^ 12 + c.log2N * 2 ^ 4 + c.wLeaf.log2 := by
  obtain ⟨-, hn : c.log2N ≤ 255, -, -⟩ := c.legal
  have hdiv := c.divW.log2_le_six
  have hleaf := c.wLeaf.log2_le_six
  simp only [configWord, toNat_append, BitVec.toNat_ofNat, nreg]
  omega

/-- Settles O3, from the value of CONFIG as a number and the widths as powers of two. -/
theorem configWordReportsInstance : Obligations.ConfigWordReportsInstance := by
  refine ⟨fun s => ⟨_, rfl, ?_⟩, fun s t h => ?_, by decide⟩
  · obtain ⟨-, hn : s.cfg.log2N ≤ 255, -, -⟩ := s.cfg.legal
    have hdiv := s.cfg.divW.log2_le_six
    have hleaf := s.cfg.wLeaf.log2_le_six
    have hlayout : (layoutBit s.cfg.mulLayout).toNat < 2 ^ 1 := BitVec.isLt _
    rw [s.csr_config, ← layoutBit_toNat_eq_one_iff, s.cfg.n_eq_two_pow]
    simp only [slice, configWord_toNat, NativeWidth.bits]
    refine ⟨congrArg (2 ^ ·) ?_, congrArg (2 ^ ·) ?_, congrArg (2 ^ ·) ?_, ?_, ?_, ?_⟩
    all_goals omega
  · obtain rfl := Host.Outcome.next.inj h
    rw [State.csr_config, State.csr_config, State.takeReset_cfg]

/-! ### The composite tree of a register (R19) -/

/-- A slice of a slice is a slice of the whole (R13). -/
theorem slice_slice {v m o lo len : Nat} (h : lo + len ≤ m) : slice (slice v o m) lo len = slice v (o + lo) len := by
  unfold slice
  apply Nat.eq_of_testBit_eq
  intro i
  simp only [Nat.testBit_mod_two_pow, Nat.testBit_div_two_pow]
  by_cases hi : i < len
  · have him : lo + i < m := by omega
    simp [hi, Nat.add_comm, Nat.add_left_comm, him]
  · simp [hi]

namespace Composite

variable (w : Nat)

theorem width_ofValue (k v : Nat) : (ofValue w k v).width w = widthAt w k := by
  induction k generalizing v with
  | zero => simp [ofValue, width, widthAt]
  | succ k ih => rw [ofValue, width, ih, ih, widthAt_succ, Nat.two_mul]

theorem value_ofValue {k v : Nat} (hv : v < 2 ^ widthAt w k) : (ofValue w k v).value w = v := by
  induction k generalizing v with
  | zero =>
    rw [widthAt, Nat.pow_zero, Nat.mul_one] at hv
    simp [ofValue, value, slice, Nat.mod_eq_of_lt hv]
  | succ k ih =>
    rw [ofValue, value, width_ofValue, ih (hiHalf_lt _ v), ih (loHalf_lt _ v)]
    exact concat_halves (widthAt_succ w k ▸ hv)

/-- Leaf i of the low half is leaf i of the whole. -/
theorem leafOf_loHalf {k i : Nat} (hi : i < 2 ^ k) (v : Nat) : leafOf w (loHalf (widthAt w k) v) i = leafOf w v i := by
  have : i * w + w ≤ widthAt w k := by
    rw [widthAt]
    nlinarith
  rw [leafOf, loHalf, slice_slice this, Nat.zero_add, leafOf]

/-- Leaf i of the high half is leaf 2^k + i of the whole. -/
theorem leafOf_hiHalf {k i : Nat} (hi : i < 2 ^ k) (v : Nat) :
    leafOf w (hiHalf (widthAt w k) v) i = leafOf w v (2 ^ k + i) := by
  have : i * w + w ≤ widthAt w k := by
    rw [widthAt]
    nlinarith
  rw [leafOf, hiHalf, slice_slice this, leafOf, widthAt, Nat.add_mul, Nat.mul_comm w]

theorem leaves_ofValue (k v : Nat) : (ofValue w k v).leaves = (List.range (2 ^ k)).map (leafOf w v) := by
  induction k generalizing v with
  | zero => simp [ofValue, leaves, leafOf]
  | succ k ih =>
    rw [ofValue, leaves, ih, ih, Nat.pow_succ, Nat.mul_two, List.range_add, List.map_append, List.map_map]
    congr 1 <;> refine List.map_congr_left fun i hi => ?_
    · exact leafOf_loHalf w (List.mem_range.mp hi) v
    · exact leafOf_hiHalf w (List.mem_range.mp hi) v

end Composite

/-- Settles O10, by the tree's width, value and leaves at every depth. -/
theorem registerHoldsCompositeTree : Obligations.RegisterHoldsCompositeTree := by
  intro s r
  obtain ⟨hdepth, -⟩ := s.cfg.legal
  obtain ⟨k, hk⟩ := Nat.exists_eq_succ_of_ne_zero (Nat.one_le_iff_ne_zero.mp hdepth)
  have hx : s.x r < 2 ^ widthAt s.cfg.wLeaf.bits s.cfg.depth := s.x_lt r
  have hx2 : s.x r < 2 ^ (2 * widthAt s.cfg.wLeaf.bits k) := by rwa [hk, widthAt_succ] at hx
  refine ⟨_, rfl, Composite.value_ofValue _ hx, Composite.width_ofValue _ _ _, Composite.leaves_ofValue _ _ _,
    Nat.mul_comm _ _, ?_⟩
  rw [Config.half_n hk, hk]
  exact ⟨(concat_halves hx2).symm, _, _, rfl, Composite.value_ofValue _ (hiHalf_lt _ _),
    Composite.value_ofValue _ (loHalf_lt _ _)⟩

/-! ### Registers that were never written (R21, R22, R93) -/

/-- The operations a command ends in (R62, R95). -/
inductive CommandEffect : (State → State) → Prop where
  | completeOne (rd : RegNum) (v : Nat) : CommandEffect fun s => s.completeOne rd v
  | completeTwo (rd : RegNum) (v : Nat) (rd2 : RegNum) (v2 : Nat) : CommandEffect fun s => s.completeTwo rd v rd2 v2
  | raise (e : Exn) (w : Word) : CommandEffect fun s => s.raise e w

/-- A command does one and the same to two states of equal parameters that agree on its sources (R63, R78). -/
theorem exec_same_effect {s s' : State} (hcfg : s.cfg = s'.cfg) (i : Instr) (hsrc : ∀ r ∈ sources i, s.x r = s'.x r) :
    ∃ f, CommandEffect f ∧ exec i s = .next (f s) ∧ exec i s' = .next (f s') := by
  cases i with
  | add rd rs1 rs2 | sub rd rs1 rs2 | mul rd rs1 rs2 =>
    refine ⟨_, .completeOne rd _, rfl, ?_⟩
    simp [exec, execAdd, execSub, execMul, State.source, hcfg, hsrc rs1 (by simp [sources]), hsrc rs2 (by simp [sources])]
  | mulx rd rd2 rs1 rs2 =>
    have h1 := hsrc rs1 (by simp [sources])
    have h2 := hsrc rs2 (by simp [sources])
    by_cases hd : rd = rd2
    · subst hd
      exact ⟨_, .raise .illegalCommand _, execMulx_equal rd rs1 rs2 s, execMulx_equal rd rs1 rs2 s'⟩
    · refine ⟨_, .completeTwo rd _ rd2 _, execMulx_distinct hd rs1 rs2 s, ?_⟩
      rw [h1, h2, hcfg]
      exact execMulx_distinct hd rs1 rs2 s'
  | divmod rd rd2 rs1 rs2 =>
    have h1 : s.nativeSource rs1 = s'.nativeSource rs1 := by
      rw [State.nativeSource, hsrc rs1 (by simp [sources]), hcfg, State.nativeSource]
    have h2 : s.nativeSource rs2 = s'.nativeSource rs2 := by
      rw [State.nativeSource, hsrc rs2 (by simp [sources]), hcfg, State.nativeSource]
    by_cases hd : rd = rd2
    · subst hd
      exact ⟨_, .raise .illegalCommand _, execDivmod_equal rd rs1 rs2 s, execDivmod_equal rd rs1 rs2 s'⟩
    · by_cases h0 : s.nativeSource rs2 = 0
      · exact ⟨_, .raise .divideByZero _, execDivmod_zero hd rs1 h0, execDivmod_zero hd rs1 (h2 ▸ h0)⟩
      · refine ⟨_, .completeTwo rd _ rd2 _, execDivmod_nonzero hd rs1 h0, ?_⟩
        rw [h1, h2]
        exact execDivmod_nonzero hd rs1 (h2 ▸ h0)

namespace SameButUnwritten

variable {s s' : State}

theorem cfg_eq (h : SameButUnwritten s s') : s.cfg = s'.cfg := h.1

theorem mark_eq (h : SameButUnwritten s s') (r : RegNum) : s.mark r = s'.mark r :=
  have ⟨_, hmark, _⟩ := h
  hmark r

theorem x_eq (h : SameButUnwritten s s') {r : RegNum} (hr : s.mark r = true) : s.x r = s'.x r :=
  have ⟨_, _, hx, _⟩ := h
  hx r hr

theorem status (h : SameButUnwritten s s') : SameStatus s s' :=
  have ⟨_, _, _, hstatus, _⟩ := h
  hstatus

theorem faulted_eq (h : SameButUnwritten s s') : s'.faulted = s.faulted :=
  have ⟨_, hfaulted, _⟩ := h.status
  hfaulted

theorem csr_eq (h : SameButUnwritten s s') (a : BitVec 8) : s.csr a = s'.csr a := by
  by_cases ha : a = 0x04#8
  · rw [ha, s.csr_config, s'.csr_config, h.cfg_eq]
  · exact h.status.csr_eq ha

theorem writeReg (h : SameButUnwritten s s') (rd : RegNum) (v : Nat) :
    SameButUnwritten (s.writeReg rd v) (s'.writeReg rd v) := by
  obtain ⟨hcfg, hmark, hx, hrest⟩ := h
  refine ⟨hcfg, fun r => ?_, fun r hr => ?_, hrest⟩
  · rw [State.mark_writeReg, State.mark_writeReg, hmark]
  · by_cases hrd : r = rd
    · simp [State.x_writeReg, hrd, hcfg]
    · rw [State.mark_writeReg, if_neg hrd] at hr
      simp [State.x_writeReg, hrd, hx r hr]

theorem advanceCi (h : SameButUnwritten s s') : SameButUnwritten s.advanceCi s'.advanceCi := by
  obtain ⟨hcfg, hmark, hx, ⟨hci, hlatch⟩, hrest⟩ := h
  exact ⟨hcfg, hmark, hx, ⟨congrArg (· + 1) hci, hlatch⟩, hrest⟩

theorem raise (h : SameButUnwritten s s') (e : Exn) (w : Word) : SameButUnwritten (s.raise e w) (s'.raise e w) := by
  obtain ⟨hcfg, hmark, hx, ⟨hci, -⟩, hrest⟩ := h
  exact ⟨hcfg, hmark, hx, ⟨hci, rfl, rfl, hci, rfl⟩, hrest⟩

theorem commandEffect (h : SameButUnwritten s s') {f : State → State} (hf : CommandEffect f) :
    SameButUnwritten (f s) (f s') := by
  cases hf with
  | completeOne rd v => exact (h.writeReg rd v).advanceCi
  | completeTwo rd v rd2 v2 => exact ((h.writeReg rd v).writeReg rd2 v2).advanceCi
  | raise e w => exact h.raise e w

/-- The host receives the same value of a register with a mark (R40). -/
theorem hostReadReg (h : SameButUnwritten s s') {r : RegNum} (hr : s.mark r = true) :
    SameButUnwritten (s.hostReadReg r) (s'.hostReadReg r) := by
  have hxr := h.x_eq hr
  obtain ⟨hcfg, hmark, hx, hstatus, hinputs, hreturned, hresets⟩ := h
  exact ⟨hcfg, hmark, hx, hstatus, hinputs, by simp [hxr, hreturned], hresets⟩

theorem hostReadCsr (h : SameButUnwritten s s') (a : BitVec 8) :
    SameButUnwritten (s.hostReadCsr a) (s'.hostReadCsr a) := by
  have hcsr := h.csr_eq a
  obtain ⟨hcfg, hmark, hx, hstatus, hinputs, hreturned, hresets⟩ := h
  exact ⟨hcfg, hmark, hx, hstatus, hinputs, by simp [hcsr, hreturned], hresets⟩

/-- After a reset no register has a mark, so nothing is asked of the contents (R107). -/
theorem takeReset (h : SameButUnwritten s s') : SameButUnwritten s.takeReset s'.takeReset := by
  obtain ⟨hcfg, -, -, -, hinputs, hreturned, hresets⟩ := h
  simp [SameButUnwritten, SameStatus, hcfg, hinputs, hreturned, hresets]

/-- What counts as UNWRITTEN_READ rests on the marks and the fault latch alone (R93, R94). -/
theorem readsUnwritten_eq (h : SameButUnwritten s s') (e : Event) : readsUnwritten s' e = readsUnwritten s e := by
  cases e with
  | command w => simp only [readsUnwritten, h.faulted_eq, h.mark_eq]
  | hostReadReg r => simp only [readsUnwritten, h.mark_eq]
  | hostWriteReg | hostReadCsr | reset => rfl

end SameButUnwritten

theorem mark_of_readsUnwritten_command {s : State} {w : Word} {i : Instr} (h : readsUnwritten s (.command w) = false)
    (hf : s.faulted = false) (hd : decode w = .ok i) {r : RegNum} (hr : r ∈ sources i) : s.mark r = true := by
  simp only [readsUnwritten, hf, hd, Bool.not_false, Bool.true_and, List.any_eq_false] at h
  simpa using h r hr

/-- Two outcomes that are next states, alike but for the contents of registers without a mark. -/
def NextSameButUnwritten (o o' : Host.Outcome State Fault Refusal) : Prop :=
  ∃ t t', o = .next t ∧ o' = .next t' ∧ SameButUnwritten t t'

theorem SameButUnwritten.next {t t' : State} (h : SameButUnwritten t t') :
    NextSameButUnwritten (.next t) (.next t') :=
  ⟨t, t', rfl, rfl, h⟩

section noninterference

variable {s s' : State} (h : SameButUnwritten s s')
include h

theorem takeCommand_sameButUnwritten {w : Word} (hread : readsUnwritten s (.command w) = false) :
    NextSameButUnwritten (takeCommand w s) (takeCommand w s') := by
  cases hf : s.faulted with
  | true =>
    rw [takeCommand_faulted hf, takeCommand_faulted (h.faulted_eq.trans hf)]
    exact h.next
  | false =>
    have hf' := h.faulted_eq.trans hf
    cases hd : decode w with
    | error e =>
      rw [takeCommand_illegal hf hd, takeCommand_illegal hf' hd]
      exact (h.raise .illegalCommand w).next
    | ok i =>
      obtain ⟨f, heffect, hs, hs'⟩ :=
        exec_same_effect h.cfg_eq i fun r hr => h.x_eq (mark_of_readsUnwritten_command hread hf hd hr)
      rw [takeCommand_legal hf hd, takeCommand_legal hf' hd, hs, hs']
      exact (h.commandEffect heffect).next

theorem takeEvent_sameButUnwritten {e : Event} (hread : readsUnwritten s e = false) :
    NextSameButUnwritten (takeEvent e s) (takeEvent e s') := by
  cases e with
  | command w => exact takeCommand_sameButUnwritten h hread
  | hostWriteReg r v => exact (h.writeReg r v).next
  | hostReadReg r => exact (h.hostReadReg (by simpa [readsUnwritten] using hread)).next
  | hostReadCsr a => exact (h.hostReadCsr a).next
  | reset => exact h.takeReset.next

/-- Both states stop at UNWRITTEN_READ, or both go on alike (R93). -/
theorem checkedEvent_sameButUnwritten (e : Event) :
    (checkedEvent e s = .fault .unwrittenRead ∧ checkedEvent e s' = .fault .unwrittenRead) ∨
    NextSameButUnwritten (checkedEvent e s) (checkedEvent e s') := by
  unfold checkedEvent
  rw [h.readsUnwritten_eq]
  split
  case isTrue => exact .inl ⟨rfl, rfl⟩
  case isFalse hread => exact .inr (takeEvent_sameButUnwritten h (Bool.eq_false_of_not_eq_true hread))

end noninterference

/-- Settles O51, by induction over the inputs. -/
theorem unwrittenContentsAreInvisible : Obligations.UnwrittenContentsAreInvisible := by
  intro es
  induction es with
  | nil =>
    intro s s' t h ht
    obtain rfl := Host.Outcome.next.inj ht
    exact ⟨s', rfl, h⟩
  | cons e es ih =>
    intro s s' t h ht
    obtain ⟨hs, -⟩ | ⟨u, u', hs, hs', hu⟩ := checkedEvent_sameButUnwritten h e
    · simp [checkedRun, hs] at ht
    · simp only [checkedRun, hs, hs'] at ht ⊢
      exact ih u u' t hu ht

end Sys2Proof.Machine
end

section
/-! PROOFS. The host port (20_memory.md section 2): what each of its three operations returns, what it writes, and what it
leaves unchanged. -/

namespace Sys2Proof.Machine

/-! ### The addresses of the status registers (R26, R32) -/

theorem State.csr_ci (s : State) : s.csr 0x01#8 = s.ci := rfl

theorem State.csr_faultCi (s : State) : s.csr 0x02#8 = s.faultCi := rfl

theorem State.csr_faultCmd (s : State) : s.csr 0x03#8 = s.faultCmd := rfl

theorem State.csr_undefined (s : State) {a : BitVec 8} (ha : 5 ≤ a.toNat) : s.csr a = 0 := by
  have hne : ∀ b : BitVec 8, b.toNat < 5 → a ≠ b := by
    rintro b hb rfl
    omega
  simp [State.csr, hne]

/-- With the parameters, `SameStatus` determines every status register, CONFIG too (R26, R31). -/
theorem SameStatus.csr_eq_of_cfg {s t : State} (h : SameStatus s t) (hcfg : t.cfg = s.cfg) (a : BitVec 8) :
    t.csr a = s.csr a := by
  by_cases ha : a = 0x04#8
  · rw [ha, t.csr_config, s.csr_config, hcfg]
  · exact (h.csr_eq ha).symm

/-! ### HostWriteReg (R39) -/

theorem State.x_hostWriteReg_self (s : State) (r : RegNum) {v : Nat} (hv : v < 2 ^ s.cfg.n) :
    (s.hostWriteReg r v).x r = v := by
  rw [State.hostWriteReg, State.x_writeReg, if_pos rfl, Nat.mod_eq_of_lt hv]

theorem State.mark_hostWriteReg_self (s : State) (r : RegNum) (v : Nat) : (s.hostWriteReg r v).mark r = true := by
  rw [State.hostWriteReg, State.mark_writeReg, if_pos rfl]

theorem sameStatus_hostWriteReg (s : State) (r : RegNum) (v : Nat) : SameStatus s (s.hostWriteReg r v) := .refl s

theorem sameSurroundings_hostWriteReg (s : State) (r : RegNum) (v : Nat) : SameSurroundings s (s.hostWriteReg r v) :=
  ⟨rfl, rfl, rfl, rfl⟩

/-- Settles O5, from the value, the mark and the frame of the write. -/
theorem hostWriteSetsRegister : Obligations.HostWriteSetsRegister := fun s r v hv =>
  ⟨s.hostWriteReg r v, rfl, s.x_hostWriteReg_self r hv, s.mark_hostWriteReg_self r v, sameRegsBut_hostWriteReg s r v,
    sameStatus_hostWriteReg s r v, sameSurroundings_hostWriteReg s r v⟩

/-! ### HostReadReg (R40) -/

theorem sameRegsBut_hostReadReg (s : State) (r : RegNum) : SameRegsBut [] s (s.hostReadReg r) :=
  fun q _ => ⟨s.hostReadReg_x r q, s.hostReadReg_mark r q⟩

theorem sameStatus_hostReadReg (s : State) (r : RegNum) : SameStatus s (s.hostReadReg r) := .refl s

/-- The checked model reads a register with a mark, and stops at one without (R40, R93). -/
theorem checkedEvent_hostReadReg (s : State) (r : RegNum) :
    checkedEvent (.hostReadReg r) s = if s.mark r then .next (s.hostReadReg r) else .fault .unwrittenRead := by
  cases hmark : s.mark r with
  | true => simp [checkedEvent, readsUnwritten, hmark, takeEvent]
  | false => simp [checkedEvent, readsUnwritten, hmark]

/-- Settles O6, from the frame of the read and what the checked model does with it. -/
theorem hostReadReturnsRegister : Obligations.HostReadReturnsRegister := fun s r =>
  ⟨s.hostReadReg r, rfl, s.hostReadReg_returned r, s.x_lt r, sameRegsBut_hostReadReg s r, sameStatus_hostReadReg s r,
    s.hostReadReg_cfg r, s.hostReadReg_inputs r, s.hostReadReg_resets r, checkedEvent_hostReadReg s r⟩

/-! ### HostReadCsr (R41) -/

theorem sameRegsBut_hostReadCsr (s : State) (a : BitVec 8) : SameRegsBut [] s (s.hostReadCsr a) :=
  fun q _ => ⟨s.hostReadCsr_x a q, s.hostReadCsr_mark a q⟩

theorem sameStatus_hostReadCsr (s : State) (a : BitVec 8) : SameStatus s (s.hostReadCsr a) := .refl s

/-- Settles O4: the read returns the register of its address, and each of the three operations keeps `SameStatus` and the
parameters. -/
theorem statusReadReturnsRegister : Obligations.StatusReadReturnsRegister := by
  refine ⟨fun s a => ⟨s.hostReadCsr a, s.csr a, rfl, s.hostReadCsr_returned a, rfl, ?_, ?_, ?_, ?_, ?_, s.csr_undefined,
    sameRegsBut_hostReadCsr s a, sameStatus_hostReadCsr s a, s.hostReadCsr_cfg a, s.hostReadCsr_inputs a,
    s.hostReadCsr_resets a⟩, fun s t e he h => ?_⟩
  · exact fun ha => ha ▸ s.csr_ci
  · exact fun ha => ha ▸ s.csr_faultCi
  · exact fun ha => ha ▸ s.csr_faultCmd
  · exact fun ha => ha ▸ s.csr_status
  · exact fun ha => ha ▸ s.csr_config
  · obtain ⟨r, v, rfl⟩ | ⟨r, rfl⟩ | ⟨b, rfl⟩ := he
    all_goals obtain rfl := Host.Outcome.next.inj h
    · exact ⟨sameStatus_hostWriteReg s r v, (sameStatus_hostWriteReg s r v).csr_eq_of_cfg (s.hostWriteReg_cfg r v)⟩
    · exact ⟨sameStatus_hostReadReg s r, (sameStatus_hostReadReg s r).csr_eq_of_cfg (s.hostReadReg_cfg r)⟩
    · exact ⟨sameStatus_hostReadCsr s b, (sameStatus_hostReadCsr s b).csr_eq_of_cfg (s.hostReadCsr_cfg b)⟩

end Sys2Proof.Machine
end

section
/-! PROOFS. The command word (30_encoding.md): its fields as numbers, decoding and encoding as inverses of each other,
which words are legal, what a presented word does, aliasing of operands, and the assembler. -/

namespace Sys2Proof

open Machine

/-! ### The fields of a word as numbers (R13, R56, R57) -/

section fields

variable (w : Word)

theorem extractLsb'_toNat_eq_slice {n : Nat} (v : BitVec n) (lo len : Nat) :
    (v.extractLsb' lo len).toNat = slice v.toNat lo len := by
  rw [BitVec.extractLsb'_toNat, Nat.shiftRight_eq_div_pow, slice]

theorem opField_toNat : (opField w).toNat = slice w.toNat 28 4 := extractLsb'_toNat_eq_slice w 28 4

theorem rdField_toNat : (rdField w).toNat = slice w.toNat 24 4 := extractLsb'_toNat_eq_slice w 24 4

theorem rs1Field_toNat : (rs1Field w).toNat = slice w.toNat 20 4 := extractLsb'_toNat_eq_slice w 20 4

theorem rs2Field_toNat : (rs2Field w).toNat = slice w.toNat 16 4 := extractLsb'_toNat_eq_slice w 16 4

theorem rd2Field_toNat : (rd2Field w).toNat = slice w.toNat 12 4 := extractLsb'_toNat_eq_slice w 12 4

theorem zeroField_toNat : (zeroField w).toNat = slice w.toNat 0 12 := extractLsb'_toNat_eq_slice w 0 12

end fields

/-- A field names the register whose number is its value (R57). -/
theorem eq_fieldOf_iff {f : BitVec 4} {r : RegNum} : f = fieldOf r ↔ f.toNat = r.val := by
  rw [← BitVec.toNat_inj, fieldOf_toNat]

/-- The six fields of format R4 are the whole word (R56). -/
theorem word_eq_iff_fields {w v : Word} : w = v ↔ opField w = opField v ∧ rdField w = rdField v ∧
    rs1Field w = rs1Field v ∧ rs2Field w = rs2Field v ∧ rd2Field w = rd2Field v ∧ zeroField w = zeroField v := by
  refine ⟨fun h => by simp [h], fun h => ?_⟩
  simp only [← BitVec.toNat_inj, opField_toNat, rdField_toNat, rs1Field_toNat, rs2Field_toNat, rd2Field_toNat,
    zeroField_toNat, slice] at h
  apply BitVec.eq_of_toNat_eq
  omega

theorem eq_packR4_iff {w : Word} {op rd rs1 rs2 rd2 : BitVec 4} : w = packR4 op rd rs1 rs2 rd2 ↔ opField w = op ∧
    rdField w = rd ∧ rs1Field w = rs1 ∧ rs2Field w = rs2 ∧ rd2Field w = rd2 ∧ zeroField w = 0#12 := by
  rw [word_eq_iff_fields, opField_packR4, rdField_packR4, rs1Field_packR4, rs2Field_packR4, rd2Field_packR4,
    zeroField_packR4]

/-! ### Decoding and encoding are inverses (R58, R60, R61) -/

theorem decode_encode {i : Instr} (h : i.wellFormed = true) : decode (encode i) = .ok i := by
  cases i with
  | add rd rs1 rs2 | sub rd rs1 rs2 | mul rd rs1 rs2 =>
    simp [decode, encode, opcode, opField_packR4, rdField_packR4, rs1Field_packR4, rs2Field_packR4, rd2Field_packR4,
      zeroField_packR4, regOf_fieldOf]
  | mulx rd rd2 rs1 rs2 | divmod rd rd2 rs1 rs2 =>
    have hne : rd ≠ rd2 := bne_iff_ne.mp h
    simp [decode, encode, opcode, opField_packR4, rdField_packR4, rs1Field_packR4, rs2Field_packR4, rd2Field_packR4,
      zeroField_packR4, regOf_fieldOf, fieldOf_inj, hne]

/-- The opcode table's numbering of the 32 bits is the word's own (log 10). -/
theorem tableWord_toNat (w : Word) : tableWord 32 w.toNat = w := by
  rw [tableWord, Nat.mod_eq_of_lt w.isLt, BitVec.ofNat_toNat, BitVec.setWidth_eq]

/-- Settles O14: the decoder reads back each field that `encode` packs. -/
theorem decodeOfEncodeIsIdentity : Obligations.DecodeOfEncodeIsIdentity := by
  intro i h
  have hdecode := decode_encode h
  exact ⟨hdecode, by rw [decodeTableWord, tableWord_toNat, hdecode]⟩

/-- Settles O15, by the branches of the decoder that accept. -/
theorem encodeOfDecodeIsIdentity : Obligations.EncodeOfDecodeIsIdentity :=
  fun _ _ h => ⟨wellFormed_of_decode h, encode_of_decode h⟩

theorem decode_eq_ok_iff {w : Word} {i : Instr} : decode w = .ok i ↔ i.wellFormed = true ∧ w = encode i := by
  refine ⟨fun h => ⟨wellFormed_of_decode h, (encode_of_decode h).symm⟩, ?_⟩
  rintro ⟨h, rfl⟩
  exact decode_encode h

/-! ### The rows of the opcode map (R58) -/

section opcodeMap

variable {w : Word} {op : BitVec 4} {rd rd2 rs1 rs2 : RegNum}

/-- A mask of ones keeps a field of four bits. -/
theorem and_nibbleMask (f : BitVec 4) : f &&& 0xF#4 = f := BitVec.and_allOnes

theorem and_zeroFieldMask (f : BitVec 12) : f &&& 0xFFF#12 = f := BitVec.and_allOnes

/-- The mask of ADD, SUB and MUL selects OP, RD2 and ZERO. -/
theorem maskRd2_eq_iff : w &&& 0xF000FFFF#32 = packR4 op 0#4 0#4 0#4 0#4 ↔
    opField w = op ∧ rd2Field w = 0#4 ∧ zeroField w = 0#12 := by
  rw [eq_packR4_iff]
  simp [opField, rdField, rs1Field, rs2Field, rd2Field, zeroField, BitVec.extractLsb'_and, and_nibbleMask,
    and_zeroFieldMask]

/-- The mask of MULX and DIVMOD selects OP and ZERO. -/
theorem maskNoRd2_eq_iff : w &&& 0xF0000FFF#32 = packR4 op 0#4 0#4 0#4 0#4 ↔
    opField w = op ∧ zeroField w = 0#12 := by
  rw [eq_packR4_iff]
  simp [opField, rdField, rs1Field, rs2Field, rd2Field, zeroField, BitVec.extractLsb'_and, and_nibbleMask,
    and_zeroFieldMask]

theorem eq_packR4_threeRegs_iff : w = packR4 op (fieldOf rd) (fieldOf rs1) (fieldOf rs2) 0#4 ↔
    w &&& 0xF000FFFF#32 = packR4 op 0#4 0#4 0#4 0#4 ∧ slice w.toNat 24 4 = rd.val ∧ slice w.toNat 20 4 = rs1.val ∧
    slice w.toNat 16 4 = rs2.val := by
  rw [eq_packR4_iff, maskRd2_eq_iff, eq_fieldOf_iff, eq_fieldOf_iff, eq_fieldOf_iff, rdField_toNat, rs1Field_toNat,
    rs2Field_toNat]
  tauto

theorem eq_packR4_fourRegs_iff : w = packR4 op (fieldOf rd) (fieldOf rs1) (fieldOf rs2) (fieldOf rd2) ↔
    w &&& 0xF0000FFF#32 = packR4 op 0#4 0#4 0#4 0#4 ∧ slice w.toNat 24 4 = rd.val ∧ slice w.toNat 20 4 = rs1.val ∧
    slice w.toNat 16 4 = rs2.val ∧ slice w.toNat 12 4 = rd2.val := by
  rw [eq_packR4_iff, maskNoRd2_eq_iff, eq_fieldOf_iff, eq_fieldOf_iff, eq_fieldOf_iff, eq_fieldOf_iff, rdField_toNat,
    rs1Field_toNat, rs2Field_toNat, rd2Field_toNat]
  tauto

end opcodeMap

/-- Settles O13: a word decodes to a command when it is that command's word, which its row and its fields determine. -/
theorem decodeMatchesOpcodeMap : Obligations.DecodeMatchesOpcodeMap := by
  intro w rd rd2 rs1 rs2
  have three (op : BitVec 4) := eq_packR4_threeRegs_iff (w := w) (op := op) (rd := rd) (rs1 := rs1) (rs2 := rs2)
  have four (op : BitVec 4) :=
    eq_packR4_fourRegs_iff (w := w) (op := op) (rd := rd) (rd2 := rd2) (rs1 := rs1) (rs2 := rs2)
  simp only [decode_eq_ok_iff, Instr.wellFormed, encode, opcode, true_and, bne_iff_ne, three, four]
  exact ⟨.rfl, .rfl, .rfl, and_left_comm, and_left_comm⟩

/-! ### Illegal words (R59, R90) -/

/-- Each refusing branch of the decoder is a clause of R59, and an accepting one excludes all four. -/
theorem decode_error_iff (w : Word) : (∃ e, decode w = .error e) ↔
    (slice w.toNat 28 4 = 0 ∨ 6 ≤ slice w.toNat 28 4) ∨ slice w.toNat 0 12 ≠ 0 ∨
    ((slice w.toNat 28 4 = 1 ∨ slice w.toNat 28 4 = 2 ∨ slice w.toNat 28 4 = 3) ∧ slice w.toNat 12 4 ≠ 0) ∨
    ((slice w.toNat 28 4 = 4 ∨ slice w.toNat 28 4 = 5) ∧ slice w.toNat 24 4 = slice w.toNat 12 4) := by
  simp only [← opField_toNat, ← rdField_toNat, ← rd2Field_toNat, ← zeroField_toNat]
  cases hd : decode w
  case' error e => refine iff_of_true ⟨e, rfl⟩ ?_
  case' ok i => refine iff_of_false (by simp) ?_
  all_goals
    unfold decode at hd
    split_ifs at hd
    all_goals cases hd
    all_goals bv_omega

/-- Settles O16: the decoder refuses by these clauses, and a refused word is a fault entry. -/
theorem illegalWordsAreThoseOfR59 : Obligations.IllegalWordsAreThoseOfR59 :=
  ⟨decode_error_iff, fun s w _ hf hd => ⟨_, takeCommand_illegal hf hd, raised_raise s .illegalCommand w⟩⟩

/-! ### The presented word (R54, R62, R96) -/

/-- Settles O17: the step takes the word off the list and hands it to the command port. -/
theorem stepRunsPresentedCommand : Obligations.StepRunsPresentedCommand := by
  intro s w es hin
  have hstep : step s = takeCommand w (s.withInputs es) := step_cons hin
  have hsame : (s.withInputs es).faulted = s.faulted := s.withInputs_faulted es
  rw [hstep, ← hsame]
  exact ⟨fun hf _ => takeCommand_legal hf, fun hf _ => takeCommand_illegal hf, fun hf => takeCommand_faulted hf w⟩

/-- The step takes a placed word in the state in which it was placed. -/
theorem step_withFetchWord (s : State) (w : Word) : step (s.withFetchWord 32 w.toNat) = takeCommand w s := by
  rw [State.withFetchWord, tableWord_toNat]
  exact step_cons (s.withInputs_inputs _)

/-- Settles O18: the placed word of a well-formed command decodes to it. -/
theorem placedWordRunsNext : Obligations.PlacedWordRunsNext := by
  intro s i hf h
  rw [step_withFetchWord]
  exact takeCommand_legal hf (decode_encode h)

/-! ### The assembler (R65, R66) -/

theorem assemble_wellFormed {a : AsmStmt} {i : Instr} (ha : a.expand = .inl i) (hi : i.wellFormed = true) :
    a.assemble = .ok (encode i) := by
  simp [AsmStmt.assemble, ha, hi]

theorem assemble_illFormed {a : AsmStmt} {i : Instr} (ha : a.expand = .inl i) (hi : i.wellFormed = false) :
    a.assemble = .error .equalDestinations := by
  simp [AsmStmt.assemble, ha, hi]

/-- Settles O53, by each pseudo-instruction's expansion. -/
theorem pseudoInstructionsExpand : Obligations.PseudoInstructionsExpand := fun _ _ _ =>
  ⟨assemble_wellFormed rfl rfl, assemble_wellFormed rfl rfl, assemble_wellFormed rfl rfl, assemble_wellFormed rfl rfl,
    assemble_wellFormed rfl rfl, fun h => assemble_wellFormed rfl (bne_iff_ne.mpr h),
    fun h => assemble_illFormed rfl (bne_eq_false_iff_eq.mpr h), assemble_wellFormed rfl rfl⟩

/-- Settles O54: the assembler gives the word of a well-formed command and refuses every other command. -/
theorem assembledCommandsAreLegal : Obligations.AssembledCommandsAreLegal := by
  intro a i ha
  cases hi : i.wellFormed with
  | true =>
    rw [assemble_wellFormed ha hi]
    refine ⟨fun w hw => ?_, by simp⟩
    obtain rfl := Except.ok.inj hw
    exact decode_encode hi
  | false => simp [assemble_illFormed ha hi]

end Sys2Proof

namespace Sys2Proof.Machine

/-! ### Aliased operands (R63) -/

section destinations

variable (s : State) {rd rd2 qd qd2 : RegNum} (v v2 : Nat)

/-- What a command that completes leaves in its destination does not depend on which register that is. -/
theorem x_eq_of_completeOne {t u : State}
    (ht : (.next (s.completeOne rd v) : Host.Outcome State Fault Refusal) = .next t)
    (hu : (.next (s.completeOne qd v) : Host.Outcome State Fault Refusal) = .next u) : t.x rd = u.x qd := by
  obtain rfl := Host.Outcome.next.inj ht
  obtain rfl := Host.Outcome.next.inj hu
  rw [x_completeOne, x_completeOne]

theorem x_completeTwo_eq (hd : rd ≠ rd2) (hq : qd ≠ qd2) :
    (s.completeTwo rd v rd2 v2).x rd = (s.completeTwo qd v qd2 v2).x qd ∧
    (s.completeTwo rd v rd2 v2).x rd2 = (s.completeTwo qd v qd2 v2).x qd2 := by
  simp only [x_completeTwo_fst s hd, x_completeTwo_fst s hq, x_completeTwo_snd, and_self]

/-- Writes of two registers commute. -/
theorem State.writeReg_comm (h : rd ≠ rd2) :
    (s.writeReg rd v).writeReg rd2 v2 = (s.writeReg rd2 v2).writeReg rd v := by
  have hval : rd.val ≠ rd2.val := Fin.val_ne_of_ne h
  simp [State.writeReg, Vector.set_comm _ _ hval]

end destinations

/-- The two halves that MULX writes, put together, are the whole product (R14, R77). -/
theorem mulx_halves (s : State) (r q : RegNum) :
    slice (s.x r * s.x q) s.cfg.n s.cfg.n * 2 ^ s.cfg.n + slice (s.x r * s.x q) 0 s.cfg.n = s.x r * s.x q := by
  have hlt : s.x r * s.x q < 2 ^ (2 * s.cfg.n) := by
    rw [Nat.two_mul, Nat.pow_add]
    exact Nat.mul_lt_mul'' (s.x_lt r) (s.x_lt q)
  exact concat_halves hlt

theorem execMulx_aliasing {s t u : State} {rd rd2 qd qd2 rs1 rs2 : RegNum} (hd : rd ≠ rd2) (hq : qd ≠ qd2)
    (ht : execMulx rd rd2 rs1 rs2 s = .next t) (hu : execMulx qd qd2 rs1 rs2 s = .next u) :
    t.x rd = u.x qd ∧ t.x rd2 = u.x qd2 := by
  obtain rfl := Host.Outcome.next.inj ((execMulx_distinct hd rs1 rs2 s).symm.trans ht)
  obtain rfl := Host.Outcome.next.inj ((execMulx_distinct hq rs1 rs2 s).symm.trans hu)
  exact x_completeTwo_eq s _ _ hd hq

theorem State.nativeSource_eq_mod (s : State) (r : RegNum) : s.nativeSource r = s.x r % 2 ^ s.cfg.divW.bits :=
  loHalf_eq_mod _ _

/-- Whether DIVMOD faults does not depend on its destinations, and neither do its results (R63, R87). -/
theorem execDivmod_aliasing {s t u : State} {rd rd2 qd qd2 rs1 rs2 : RegNum} (hd : rd ≠ rd2) (hq : qd ≠ qd2)
    (ht : execDivmod rd rd2 rs1 rs2 s = .next t) (hu : execDivmod qd qd2 rs1 rs2 s = .next u) :
    t.faulted = u.faulted ∧ (s.nativeSource rs2 ≠ 0 → t.x rd = u.x qd ∧ t.x rd2 = u.x qd2) := by
  by_cases h0 : s.nativeSource rs2 = 0
  · obtain rfl := Host.Outcome.next.inj ((execDivmod_zero hd rs1 h0).symm.trans ht)
    obtain rfl := Host.Outcome.next.inj ((execDivmod_zero hq rs1 h0).symm.trans hu)
    exact ⟨rfl, fun hne => absurd h0 hne⟩
  · obtain rfl := Host.Outcome.next.inj ((execDivmod_nonzero hd rs1 h0).symm.trans ht)
    obtain rfl := Host.Outcome.next.inj ((execDivmod_nonzero hq rs1 h0).symm.trans hu)
    exact ⟨rfl, fun _ => x_completeTwo_eq s _ _ hd hq⟩

/-- Settles O31, from what a completed command leaves in its destinations. -/
theorem aliasingNeverChangesAResult : Obligations.AliasingNeverChangesAResult := by
  refine ⟨fun rd rd2 qd qd2 rs1 rs2 s hd hq => ⟨fun _ _ => x_eq_of_completeOne s _,
    fun _ _ => x_eq_of_completeOne s _, fun _ _ => x_eq_of_completeOne s _, fun _ _ => execMulx_aliasing hd hq, ?_⟩,
    ?_, ?_, fun r q s v u h => s.writeReg_comm v u h⟩
  · intro t u ht hu
    rw [← State.nativeSource_eq_mod]
    exact execDivmod_aliasing hd hq ht hu
  · intro r s t ht
    obtain rfl := Host.Outcome.next.inj ht
    rw [x_completeOne, addMod, Nat.mod_mod, Nat.two_mul]
    rfl
  · intro r q s t h ht
    obtain rfl := Host.Outcome.next.inj ((execMulx_distinct h r q s).symm.trans ht)
    rw [x_completeTwo_fst s h, x_completeTwo_snd, Nat.mod_eq_of_lt (slice_lt _ _ _), Nat.mod_eq_of_lt (slice_lt _ _ _)]
    exact mulx_halves s r q

end Sys2Proof.Machine
end

section
/-! PROOFS. Addition and subtraction (40_addsub.md): carry and borrow found by comparison, ADD and SUB as commands and
as presented words, the source's recursive algorithms, and the laws of R75. -/

/-! ### The width of a register (R8) -/

namespace Sys2Proof

theorem Config.sixteen_le_n (c : Config) : 16 ≤ c.n := by
  rw [c.n_eq_two_pow]
  exact (Nat.pow_le_pow_right (by decide) c.four_le_log2N : 2 ^ 4 ≤ 2 ^ c.log2N)

theorem Config.two_mul_half_n (c : Config) : 2 * (c.n / 2) = c.n := by
  have hlog2N : c.log2N ≠ 0 := Nat.ne_zero_of_lt c.four_le_log2N
  rw [c.n_eq_two_pow]
  exact Nat.mul_div_cancel' (dvd_pow_self 2 hlog2N)

end Sys2Proof

namespace Sys2Proof.Machine

/-! ### Carry and borrow (R69, R74) -/

theorem carryOf_le_one (s u : Nat) : carryOf s u ≤ 1 := by
  unfold carryOf
  split <;> decide

theorem borrowOf_le_one (d u : Nat) : borrowOf d u ≤ 1 := by
  unfold borrowOf
  split <;> decide

section carryBorrow

variable {m u v : Nat} (hu : u < 2 ^ m) (hv : v < 2 ^ m)
include hu hv

theorem addMod_lt_left_iff : addMod m u v < u ↔ 2 ^ m ≤ u + v := by
  obtain h | h := addMod_cases hu hv <;> omega

theorem addMod_lt_right_iff : addMod m u v < v ↔ addMod m u v < u := by
  obtain h | h := addMod_cases hu hv <;> omega

theorem lt_subMod_iff : u < subMod m u v ↔ u < v := by
  obtain h | h := subMod_cases hu hv <;> omega

/-- The wrapped sum and its carry are the whole sum (R69). -/
theorem add_eq_addMod_add_carry : u + v = addMod m u v + carryOf (addMod m u v) u * 2 ^ m := by
  rw [carryOf, ite_mul, one_mul, zero_mul]
  obtain h | h := addMod_cases hu hv <;> split <;> omega

/-- The wrapped difference less its borrow is the whole difference (R74). -/
theorem subMod_add_eq_add_borrow : subMod m u v + v = u + borrowOf (subMod m u v) u * 2 ^ m := by
  rw [borrowOf, ite_mul, one_mul, zero_mul]
  obtain h | h := subMod_cases hu hv <;> split <;> omega

end carryBorrow

/-- Settles O32: the wrapped sum is the sum, or the sum less 2^m. -/
theorem carryDetection : Obligations.CarryDetection := by
  intro m u v hu hv
  have hlt := addMod_lt_left_iff hu hv
  have hsum := add_eq_addMod_add_carry hu hv
  refine ⟨_, rfl, hlt, fun h => ?_, addMod_lt_right_iff hu hv, fun h0 => ?_, hsum, carryOf_le_one _ _⟩
  · rwa [carryOf, if_pos h, one_mul] at hsum
  · exact if_neg (by omega)

/-- Settles O33: the wrapped difference is the difference, or the difference and 2^m. -/
theorem borrowDetection : Obligations.BorrowDetection := by
  intro m u v hu hv
  have hlt := lt_subMod_iff hu hv
  have hdiff : (u : Int) - v = subMod m u v - borrowOf (subMod m u v) u * 2 ^ m := by
    have := subMod_add_eq_add_borrow hu hv
    zify at this
    linarith
  refine ⟨_, rfl, hlt, fun h => ?_, fun h0 => ?_, borrowOf_le_one _ _, hdiff⟩
  · rwa [borrowOf, if_pos h, Nat.cast_one, one_mul] at hdiff
  · exact if_neg (by omega)

/-! ### ADD and SUB (R67, R72) -/

/-- A result of N bits is written as it stands (R16). -/
theorem x_completeOne_of_lt {s : State} {v : Nat} (hv : v < 2 ^ s.cfg.n) (rd : RegNum) :
    (s.completeOne rd v).x rd = v := by
  rw [x_completeOne, Nat.mod_eq_of_lt hv]

theorem exec_add_completes (rd rs1 rs2 : RegNum) (s : State) : ∃ t, exec (.add rd rs1 rs2) s = .next t ∧
    t.x rd = addMod s.cfg.n (s.x rs1) (s.x rs2) ∧ Completed [rd] s t :=
  ⟨_, rfl, x_completeOne_of_lt (addMod_lt _ _ _) rd, completed_completeOne s rd _⟩

theorem exec_sub_completes (rd rs1 rs2 : RegNum) (s : State) : ∃ t, exec (.sub rd rs1 rs2) s = .next t ∧
    t.x rd = subMod s.cfg.n (s.x rs1) (s.x rs2) ∧ Completed [rd] s t :=
  ⟨_, rfl, x_completeOne_of_lt (subMod_lt _ _ _) rd, completed_completeOne s rd _⟩

/-- Settles O20: `addMod` is the sum modulo a power of two. -/
theorem addCompletes : Obligations.AddCompletes := exec_add_completes

/-- Settles O21: `subMod` is the integer difference modulo a power of two. -/
theorem subCompletes : Obligations.SubCompletes := by
  intro rd rs1 rs2 s
  obtain ⟨t, hexec, hx, hc⟩ := exec_sub_completes rd rs1 rs2 s
  refine ⟨t, hexec, ?_, hc⟩
  rw [hx, subMod_cast, Nat.cast_pow, Nat.cast_ofNat]

/-! ### ADD and SUB as presented words (R67, R72, R93) -/

section presented

variable {s t : State} {w : Word} {i : Instr} {rs1 rs2 : RegNum} (hf : s.faulted = false) (hd : decode w = .ok i)
include hf hd

theorem readsUnwritten_legal (hsources : sources i = [rs1, rs2]) :
    readsUnwritten s (.command w) = !(s.mark rs1 && s.mark rs2) := by
  simp [readsUnwritten, hf, hd, hsources]

/-- The checked model runs a legal word whose two sources were written, and faults on any other (R93). -/
theorem checkedEvent_legal (hsources : sources i = [rs1, rs2]) (ht : takeCommand w s = .next t) :
    checkedEvent (.command w) s = if s.mark rs1 && s.mark rs2 then .next t else .fault .unwrittenRead := by
  rw [checkedEvent, readsUnwritten_legal hf hd hsources, takeEvent, ht]
  cases s.mark rs1 && s.mark rs2 <;> rfl

end presented

/-- Settles O25: the word decodes to ADD, and `addCompletes` says what ADD does. -/
theorem addRule : Obligations.AddRule := by
  intro s w rd rs1 rs2 hf hmask hrd hrs1 hrs2
  obtain ⟨hadd, -⟩ := decodeMatchesOpcodeMap w rd rd rs1 rs2
  have hd := hadd.mpr ⟨hmask, hrd, hrs1, hrs2⟩
  obtain ⟨t, hexec, hx, hc⟩ := addCompletes rd rs1 rs2 s
  have ht := (takeCommand_legal hf hd).trans hexec
  exact ⟨t, ht, hx, hc, checkedEvent_legal hf hd rfl ht⟩

/-- Settles O26: the word decodes to SUB, and `subCompletes` says what SUB does. -/
theorem subRule : Obligations.SubRule := by
  intro s w rd rs1 rs2 hf hmask hrd hrs1 hrs2
  obtain ⟨-, hsub, -⟩ := decodeMatchesOpcodeMap w rd rd rs1 rs2
  have hd := hsub.mpr ⟨hmask, hrd, hrs1, hrs2⟩
  obtain ⟨t, hexec, hx, hc⟩ := subCompletes rd rs1 rs2 s
  have ht := (takeCommand_legal hf hd).trans hexec
  exact ⟨t, ht, hx, hc, checkedEvent_legal hf hd rfl ht⟩

/-! ### Halves modulo a power of two (R14, R15) -/

theorem loHalf_concatHalves {h lo : Nat} (hi : Nat) (hlo : lo < 2 ^ h) : loHalf h (concatHalves h hi lo) = lo := by
  rw [loHalf_eq_mod, concatHalves, Nat.mul_add_mod_of_lt hlo]

theorem hiHalf_concatHalves {h hi lo : Nat} (hhi : hi < 2 ^ h) (hlo : lo < 2 ^ h) :
    hiHalf h (concatHalves h hi lo) = hi := by
  rw [hiHalf_eq_div (concatHalves_lt hhi hlo), concatHalves, Nat.add_div_of_dvd_right (Nat.dvd_mul_left _ _),
    Nat.mul_div_cancel _ (Nat.two_pow_pos h), Nat.div_eq_of_lt hlo, Nat.add_zero]

/-- The two halves of a value of any size are its low 2h bits (R14). -/
theorem concat_halves_modEq (h v : Nat) : concatHalves h (hiHalf h v) (loHalf h v) ≡ v [MOD 2 ^ (2 * h)] := by
  rw [loHalf_eq_mod, hiHalf, slice, concatHalves, Nat.two_mul, Nat.pow_add, Nat.add_comm, Nat.mul_comm (_ % _),
    ← Nat.mod_mul]
  exact Nat.mod_modEq _ _

/-- A value is known modulo 2^(2h) where its high half is known modulo 2^h. -/
theorem concatHalves_modEq {h x y : Nat} (hxy : x ≡ y [MOD 2 ^ h]) (lo : Nat) :
    concatHalves h x lo ≡ concatHalves h y lo [MOD 2 ^ (2 * h)] := by
  rw [Nat.two_mul, Nat.pow_add]
  exact (hxy.mul_right' _).add_right lo

theorem addMod_modEq (m a b : Nat) : addMod m a b ≡ a + b [MOD 2 ^ m] := Nat.mod_modEq _ _

theorem addMod_eq_of_modEq {m a b s : Nat} (hs : s < 2 ^ m) (h : s ≡ a + b [MOD 2 ^ m]) : addMod m a b = s :=
  Nat.mod_eq_of_modEq h.symm hs

theorem subMod_add_modEq (m a b : Nat) : subMod m a b + b ≡ a [MOD 2 ^ m] := by
  rw [← Int.natCast_modEq_iff, Nat.cast_add, subMod_cast]
  simpa using (Int.mod_modEq ((a : Int) - b) (2 ^ m : Nat)).add_right b

theorem subMod_eq_of_modEq {m a b d : Nat} (hd : d < 2 ^ m) (h : d + b ≡ a [MOD 2 ^ m]) : subMod m a b = d :=
  (((subMod_add_modEq m a b).trans h.symm).add_right_cancel' b).eq_of_lt_of_lt (subMod_lt m a b) hd

/-! ### The source's recursive addition and subtraction (R68, R73) -/

/-- Addition half by half, with the carry of the low halves added to the high ones (R68). -/
theorem addMod_halves (h a b : Nat) : concatHalves h
    (addMod h (addMod h (hiHalf h a) (hiHalf h b)) (carryOf (addMod h (loHalf h a) (loHalf h b)) (loHalf h a)))
    (addMod h (loHalf h a) (loHalf h b)) = addMod (2 * h) a b := by
  refine (addMod_eq_of_modEq (concatHalves_lt (addMod_lt _ _ _) (addMod_lt _ _ _)) ?_).symm
  have hlo := add_eq_addMod_add_carry (loHalf_lt h a) (loHalf_lt h b)
  set lo := addMod h (loHalf h a) (loHalf h b)
  set carry := carryOf lo (loHalf h a)
  set hi := addMod h (addMod h (hiHalf h a) (hiHalf h b)) carry
  have hhi : hi ≡ hiHalf h a + hiHalf h b + carry [MOD 2 ^ h] :=
    (addMod_modEq _ _ _).trans ((addMod_modEq _ _ _).add_right _)
  calc concatHalves h hi lo
    _ ≡ concatHalves h (hiHalf h a + hiHalf h b + carry) lo [MOD 2 ^ (2 * h)] := concatHalves_modEq hhi lo
    _ = concatHalves h (hiHalf h a) (loHalf h a) + concatHalves h (hiHalf h b) (loHalf h b) := by
      simp only [concatHalves]
      linarith
    _ ≡ a + b [MOD 2 ^ (2 * h)] := (concat_halves_modEq h a).add (concat_halves_modEq h b)

/-- Subtraction half by half, with the borrow of the low halves taken from the high ones (R73). -/
theorem subMod_halves (h a b : Nat) : concatHalves h
    (subMod h (subMod h (hiHalf h a) (hiHalf h b)) (borrowOf (subMod h (loHalf h a) (loHalf h b)) (loHalf h a)))
    (subMod h (loHalf h a) (loHalf h b)) = subMod (2 * h) a b := by
  refine (subMod_eq_of_modEq (concatHalves_lt (subMod_lt _ _ _) (subMod_lt _ _ _)) ?_).symm
  have hlo := subMod_add_eq_add_borrow (loHalf_lt h a) (loHalf_lt h b)
  set lo := subMod h (loHalf h a) (loHalf h b)
  set borrow := borrowOf lo (loHalf h a)
  set hi := subMod h (subMod h (hiHalf h a) (hiHalf h b)) borrow
  have hhi : hi + borrow + hiHalf h b ≡ hiHalf h a [MOD 2 ^ h] :=
    ((subMod_add_modEq _ _ _).add_right _).trans (subMod_add_modEq _ _ _)
  calc concatHalves h hi lo + b
    _ ≡ concatHalves h hi lo + concatHalves h (hiHalf h b) (loHalf h b) [MOD 2 ^ (2 * h)] :=
      (concat_halves_modEq h b).symm.add_left _
    _ = concatHalves h (hi + borrow + hiHalf h b) (loHalf h a) := by
      simp only [concatHalves]
      linarith
    _ ≡ concatHalves h (hiHalf h a) (loHalf h a) [MOD 2 ^ (2 * h)] := concatHalves_modEq hhi _
    _ ≡ a [MOD 2 ^ (2 * h)] := concat_halves_modEq h a

theorem widthAt_zero (w : Nat) : widthAt w 0 = w := by rw [widthAt, Nat.pow_zero, Nat.mul_one]

theorem addc_eq_addMod (w k a b : Nat) : addc w k a b = addMod (widthAt w k) a b := by
  induction k generalizing a b with
  | zero => rw [addc, widthAt_zero]
  | succ k ih =>
    simp only [addc, ih]
    rw [addMod_halves, widthAt_succ]

theorem subb_eq_subMod (w k a b : Nat) : subb w k a b = subMod (widthAt w k) a b := by
  induction k generalizing a b with
  | zero => rw [subb, widthAt_zero]
  | succ k ih =>
    simp only [subb, ih]
    rw [subMod_halves, widthAt_succ]

/-- Settles O36, by `addMod_halves` at every depth. -/
theorem recursiveAddIsModularAdd : Obligations.RecursiveAddIsModularAdd :=
  fun w k a b _ _ => addc_eq_addMod w.bits k a b

/-- Settles O37, by `subMod_halves` at every depth. -/
theorem recursiveSubIsModularSub : Obligations.RecursiveSubIsModularSub :=
  fun w k a b _ _ => by rw [subb_eq_subMod, subMod_cast]

/-! ### The laws of addition and subtraction (R75) -/

theorem addMod_comm (m a b : Nat) : addMod m a b = addMod m b a := by rw [addMod, addMod, Nat.add_comm]

theorem addMod_assoc (m a b d : Nat) : addMod m (addMod m a b) d = addMod m a (addMod m b d) := by
  rw [addMod, addMod, addMod, addMod, Nat.mod_add_mod, Nat.add_mod_mod, Nat.add_assoc]

theorem addMod_zero {m a : Nat} (ha : a < 2 ^ m) : addMod m a 0 = a := Nat.mod_eq_of_lt ha

theorem subMod_zero {m a : Nat} (ha : a < 2 ^ m) : subMod m a 0 = a := subMod_eq_of_modEq ha rfl

theorem subMod_addMod_cancel {m a : Nat} (ha : a < 2 ^ m) (b : Nat) : subMod m (addMod m a b) b = a :=
  subMod_eq_of_modEq ha (addMod_modEq m a b).symm

section lowHalf

variable {h a : Nat} (hh : h ≠ 0)
include hh

theorem loHalf_one : loHalf h 1 = 1 := by
  rw [loHalf_eq_mod, Nat.mod_eq_of_lt (Nat.one_lt_two_pow hh)]

theorem hiHalf_one : hiHalf h 1 = 0 := by
  rw [hiHalf, slice, Nat.div_eq_of_lt (Nat.one_lt_two_pow hh), Nat.zero_mod]

/-- Adding 1 to a low half of ones clears it and carries (R75). -/
theorem addMod_one_of_loHalf_ones (ha : loHalf h a = 2 ^ h - 1) :
    addMod (2 * h) a 1 = concatHalves h (addMod h (hiHalf h a) 1) 0 := by
  have hpos := Nat.one_lt_two_pow hh
  have hlo : addMod h (2 ^ h - 1) 1 = 0 := addMod_eq_of_modEq (by omega) (by simp [Nat.ModEq, hpos.le])
  have hcarry : carryOf 0 (2 ^ h - 1) = 1 := if_pos (by omega)
  rw [← addMod_halves, ha, loHalf_one hh, hiHalf_one hh, hlo, hcarry, addMod_zero (hiHalf_lt h a)]

/-- Subtracting 1 from a low half of zeros sets it and borrows (R75). -/
theorem subMod_one_of_loHalf_zero (ha : loHalf h a = 0) :
    subMod (2 * h) a 1 = concatHalves h (subMod h (hiHalf h a) 1) (2 ^ h - 1) := by
  have hpos := Nat.one_lt_two_pow hh
  have hlo : subMod h 0 1 = 2 ^ h - 1 := subMod_eq_of_modEq (by omega) (by simp [Nat.ModEq, hpos.le])
  have hborrow : borrowOf (2 ^ h - 1) 0 = 1 := if_pos (by omega)
  rw [← subMod_halves, ha, loHalf_one hh, hiHalf_one hh, hlo, hborrow, subMod_zero (hiHalf_lt h a)]

end lowHalf

/-- From two bits on, the difference of 0 and 1 is not that of 1 and 0 (R75). -/
theorem subMod_zero_one_ne_one {m : Nat} (hm : 2 ≤ m) : subMod m 0 1 ≠ 1 := by
  have hpow : 2 ^ 2 ≤ 2 ^ m := Nat.pow_le_pow_right (by decide) hm
  obtain h | h := subMod_cases (m := m) (u := 0) (v := 1) (by omega) (by omega) <;> omega

/-- Settles O34: the laws of the low half are one step of `addMod_halves` and `subMod_halves`. -/
theorem addSubLaws : Obligations.AddSubLaws := by
  intro c
  have hn := c.sixteen_le_n
  have hhalf := c.two_mul_half_n
  have hh : c.n / 2 ≠ 0 := by omega
  have hone : 1 < 2 ^ c.n := Nat.one_lt_two_pow (by omega)
  have hne : subMod c.n 0 1 ≠ 1 := subMod_zero_one_ne_one (by omega)
  have hpos := Nat.two_pow_pos (c.n / 2)
  refine ⟨fun a b d ha _ _ => ⟨addMod_comm _ a b, addMod_assoc _ a b d, subMod_addMod_cancel ha b, addMod_zero ha,
    fun hlo => ?_, fun hlo => ?_⟩, ⟨0, 1, by omega, hone, ?_⟩, ⟨0, 0, 1, by omega, by omega, hone, ?_⟩⟩
  · have hsum := addMod_one_of_loHalf_ones hh hlo
    rw [hhalf] at hsum
    rw [hsum]
    exact ⟨loHalf_concatHalves _ hpos, hiHalf_concatHalves (addMod_lt _ _ _) hpos⟩
  · have hdiff := subMod_one_of_loHalf_zero hh hlo
    rw [hhalf] at hdiff
    rw [hdiff]
    exact ⟨loHalf_concatHalves _ (by omega), hiHalf_concatHalves (subMod_lt _ _ _) (by omega)⟩
  · rwa [subMod_zero hone]
  · have hback : subMod c.n 0 (subMod c.n 0 1) = 1 :=
      subMod_eq_of_modEq hone (Nat.add_comm 1 _ ▸ subMod_add_modEq c.n 0 1)
    rwa [hback, subMod_zero (by omega)]

end Sys2Proof.Machine
end

section
/-! PROOFS. The source's multiplication over the composite tree (41_multiply.md section 3): the schoolbook, the full
product and the truncated product give the exact product, and so the four composite commands compute what the source's
algorithms compute. -/

namespace Sys2Proof.Machine

/-! ### The schoolbook (R80, R81) -/

/-- A product that is exact on `h`-bit values. -/
def ExactOn (h : Nat) (mulH : Nat → Nat → Nat) : Prop := ∀ a b, a < 2 ^ h → b < 2 ^ h → mulH a b = a * b

theorem mul_lt_two_pow_two_mul {h a b : Nat} (ha : a < 2 ^ h) (hb : b < 2 ^ h) : a * b < 2 ^ (2 * h) := by
  rw [Nat.two_mul, Nat.pow_add]
  exact Nat.mul_lt_mul'' ha hb

/-- The schoolbook multiplies halves alone. -/
theorem school_eq_of_exactOn {h : Nat} {mulH : Nat → Nat → Nat} (hmul : ExactOn h mulH) (x y : Nat) :
    school mulH h x y = school widening h x y := by
  simp only [school, schoolSteps, widening, hmul _ _ (loHalf_lt h x) (loHalf_lt h y),
    hmul _ _ (hiHalf_lt h x) (loHalf_lt h y), hmul _ _ (loHalf_lt h x) (hiHalf_lt h y),
    hmul _ _ (hiHalf_lt h x) (hiHalf_lt h y)]

section schoolbook

variable (h x y : Nat)

/-- The sum of the cross terms and its carry (R81). -/
theorem schoolSteps_cross : hiHalf h x * loHalf h y + loHalf h x * hiHalf h y =
    (schoolSteps widening h x y).z1 + (schoolSteps widening h x y).c1 * 2 ^ (2 * h) :=
  add_eq_addMod_add_carry (mul_lt_two_pow_two_mul (hiHalf_lt h x) (loHalf_lt h y))
    (mul_lt_two_pow_two_mul (loHalf_lt h x) (hiHalf_lt h y))

theorem schoolSteps_z1_lt : (schoolSteps widening h x y).z1 < 2 ^ (2 * h) := addMod_lt _ _ _

/-- The low word and its carry (R81). -/
theorem schoolSteps_low : loHalf h x * loHalf h y + loHalf h (schoolSteps widening h x y).z1 * 2 ^ h =
    (schoolSteps widening h x y).low + (schoolSteps widening h x y).c2 * 2 ^ (2 * h) := by
  refine add_eq_addMod_add_carry (mul_lt_two_pow_two_mul (loHalf_lt h x) (loHalf_lt h y)) ?_
  rw [Nat.two_mul, Nat.pow_add]
  exact Nat.mul_lt_mul_of_pos_right (loHalf_lt h _) (Nat.two_pow_pos h)

/-- The high word: the high product and what the cross terms and the low word carry into it (R80). -/
theorem schoolSteps_high : (schoolSteps widening h x y).high = hiHalf h x * hiHalf h y +
    (schoolSteps widening h x y).c1 * 2 ^ h + hiHalf h (schoolSteps widening h x y).z1 +
    (schoolSteps widening h x y).c2 := rfl

end schoolbook

/-- The low and the high word are the product (R81). -/
theorem school_widening {h x y : Nat} (hx : x < 2 ^ (2 * h)) (hy : y < 2 ^ (2 * h)) :
    school widening h x y = x * y := by
  have hcross := schoolSteps_cross h x y
  have hlow := schoolSteps_low h x y
  have hz1 := concat_halves (schoolSteps_z1_lt h x y)
  have hpow : 2 ^ (2 * h) = 2 ^ h * 2 ^ h := by rw [Nat.two_mul, Nat.pow_add]
  rw [hpow] at hcross hlow
  rw [concatHalves] at hz1
  calc school widening h x y
    _ = concatHalves h (hiHalf h x) (loHalf h x) * concatHalves h (hiHalf h y) (loHalf h y) := by
      rw [school, schoolSteps_high, concatHalves, concatHalves, concatHalves, hpow]
      linear_combination 2 ^ h * hz1 + hlow.symm + 2 ^ h * hcross.symm
    _ = x * y := by rw [concat_halves hx, concat_halves hy]

theorem exactOn_school {h : Nat} {mulH : Nat → Nat → Nat} (hmul : ExactOn h mulH) :
    ExactOn (2 * h) (school mulH h) :=
  fun x y hx hy => (school_eq_of_exactOn hmul x y).trans (school_widening hx hy)

/-! ### The full and the truncated product (R79, R80, R82) -/

theorem exactOn_xmulLeaf (w : NativeWidth) (l : MulLayout) : ExactOn w.bits (xmulLeaf w l) := by
  intro a b ha hb
  unfold xmulLeaf
  split
  case isTrue => rfl
  case isFalse =>
    rw [← w.two_mul_half_bits] at ha hb
    exact school_widening ha hb

theorem exactOn_xmul (w : NativeWidth) (l : MulLayout) (k : Nat) : ExactOn (widthAt w.bits k) (xmul w l k) := by
  induction k with
  | zero =>
    rw [widthAt_zero]
    exact exactOn_xmulLeaf w l
  | succ k ih =>
    rw [widthAt_succ]
    exact exactOn_school ih

theorem mulMod_modEq (m a b : Nat) : mulMod m a b ≡ a * b [MOD 2 ^ m] := Nat.mod_modEq _ _

/-- The truncated product half by half: the `hi * hi` term is a multiple of 2^(2h) (R82). -/
theorem mulMod_halves (h a b : Nat) : concatHalves h (addMod h (hiHalf h (loHalf h a * loHalf h b))
      (addMod h (mulMod h (hiHalf h a) (loHalf h b)) (mulMod h (loHalf h a) (hiHalf h b))))
    (loHalf h (loHalf h a * loHalf h b)) = mulMod (2 * h) a b := by
  set z0 := loHalf h a * loHalf h b
  have hz0 : concatHalves h (hiHalf h z0) (loHalf h z0) = z0 :=
    concat_halves (mul_lt_two_pow_two_mul (loHalf_lt h a) (loHalf_lt h b))
  set cross := addMod h (mulMod h (hiHalf h a) (loHalf h b)) (mulMod h (loHalf h a) (hiHalf h b))
  have hcross : cross ≡ hiHalf h a * loHalf h b + loHalf h a * hiHalf h b [MOD 2 ^ h] :=
    (addMod_modEq _ _ _).trans ((mulMod_modEq _ _ _).add (mulMod_modEq _ _ _))
  have hhi := (addMod_modEq h (hiHalf h z0) cross).trans (hcross.add_left _)
  refine (Nat.mod_eq_of_modEq (Nat.ModEq.symm ?_) (concatHalves_lt (addMod_lt _ _ _) (loHalf_lt _ _))).symm
  calc concatHalves h (addMod h (hiHalf h z0) cross) (loHalf h z0)
    _ ≡ concatHalves h (hiHalf h z0 + (hiHalf h a * loHalf h b + loHalf h a * hiHalf h b)) (loHalf h z0)
        [MOD 2 ^ (2 * h)] := concatHalves_modEq hhi _
    _ = z0 + (hiHalf h a * loHalf h b + loHalf h a * hiHalf h b) * 2 ^ h := by
      rw [concatHalves] at hz0 ⊢
      linarith
    _ ≡ z0 + (hiHalf h a * loHalf h b + loHalf h a * hiHalf h b) * 2 ^ h + 2 ^ (2 * h) * (hiHalf h a * hiHalf h b)
        [MOD 2 ^ (2 * h)] := (Nat.add_mul_mod_self_left _ _ _).symm
    _ = concatHalves h (hiHalf h a) (loHalf h a) * concatHalves h (hiHalf h b) (loHalf h b) := by
      simp only [concatHalves]
      ring
    _ ≡ a * b [MOD 2 ^ (2 * h)] := (concat_halves_modEq h a).mul (concat_halves_modEq h b)

theorem tmul_eq_mulMod (w : NativeWidth) (l : MulLayout) {k a b : Nat} (ha : a < 2 ^ widthAt w.bits k)
    (hb : b < 2 ^ widthAt w.bits k) : tmul w l k a b = mulMod (widthAt w.bits k) a b := by
  induction k generalizing a b with
  | zero =>
    rw [widthAt_zero] at *
    rw [tmul, exactOn_xmulLeaf w l a b ha hb]
    exact loHalf_eq_mod _ _
  | succ k ih =>
    have hz0 := exactOn_xmul w l k _ _ (loHalf_lt _ a) (loHalf_lt _ b)
    simp only [tmul, hz0, ih (hiHalf_lt _ a) (loHalf_lt _ b), ih (loHalf_lt _ a) (hiHalf_lt _ b)]
    rw [mulMod_halves, widthAt_succ]

/-! ### The commands and the source's algorithms (R68, R73, R78) -/

theorem exec_mul_completes (rd rs1 rs2 : RegNum) (s : State) : ∃ t, exec (.mul rd rs1 rs2) s = .next t ∧
    t.x rd = mulMod s.cfg.n (s.x rs1) (s.x rs2) ∧ Completed [rd] s t :=
  ⟨_, rfl, x_completeOne_of_lt (mulMod_lt _ _ _) rd, completed_completeOne s rd _⟩

/-- MULX leaves the two halves of the exact product in its destinations (R77). -/
theorem exec_mulx_completes {rd rd2 : RegNum} (h : rd ≠ rd2) (rs1 rs2 : RegNum) (s : State) :
    ∃ t, exec (.mulx rd rd2 rs1 rs2) s = .next t ∧ concatHalves s.cfg.n (t.x rd2) (t.x rd) = s.x rs1 * s.x rs2 ∧
      Completed [rd, rd2] s t := by
  refine ⟨_, execMulx_distinct h rs1 rs2 s, ?_, completed_completeTwo s rd rd2 _ _⟩
  rw [x_completeTwo_fst s h, x_completeTwo_snd, Nat.mod_eq_of_lt (slice_lt _ _ _), Nat.mod_eq_of_lt (slice_lt _ _ _)]
  exact mulx_halves s rs1 rs2

/-- Settles O41, from the algorithms' results at the width of a register. -/
theorem commandsEqualReferenceAlgorithms : Obligations.CommandsEqualReferenceAlgorithms := by
  intro s rd rd2 rs1 rs2 h
  obtain ⟨t, hadd, htx, -⟩ := exec_add_completes rd rs1 rs2 s
  obtain ⟨u, hsub, hux, -⟩ := exec_sub_completes rd rs1 rs2 s
  obtain ⟨p, hmul, hpx, -⟩ := exec_mul_completes rd rs1 rs2 s
  obtain ⟨q, hmulx, hqx, -⟩ := exec_mulx_completes h rs1 rs2 s
  refine ⟨t, u, p, q, hadd, ?_, hsub, ?_, hmul, ?_, hmulx, ?_⟩
  · rw [htx, addc_eq_addMod, s.cfg.n_eq]
  · rw [hux, subb_eq_subMod, s.cfg.n_eq]
  · rw [hpx, tmul_eq_mulMod _ _ (s.x_lt rs1) (s.x_lt rs2), s.cfg.n_eq]
  · rw [hqx, exactOn_xmul _ _ _ _ _ (s.x_lt rs1) (s.x_lt rs2)]

end Sys2Proof.Machine
end

section
/-! PROOFS. Multiplication (41_multiply.md): MUL and MULX as commands and as presented words, the laws of R84, and the
schoolbook's bounds with the exactness of the source's products. -/

namespace Sys2Proof.Machine

/-! ### MUL and MULX (R76, R77) -/

/-- Settles O22: `mulMod` is the product modulo a power of two. -/
theorem mulCompletes : Obligations.MulCompletes := exec_mul_completes

/-- MULX leaves the remainder and the quotient of the exact product by 2^N in its destinations (R77). -/
theorem exec_mulx_mod_div {rd rd2 : RegNum} (h : rd ≠ rd2) (rs1 rs2 : RegNum) (s : State) :
    ∃ t, exec (.mulx rd rd2 rs1 rs2) s = .next t ∧ t.x rd = s.x rs1 * s.x rs2 % 2 ^ s.cfg.n ∧
      t.x rd2 = s.x rs1 * s.x rs2 / 2 ^ s.cfg.n ∧ Completed [rd, rd2] s t := by
  refine ⟨_, execMulx_distinct h rs1 rs2 s, ?_, ?_, completed_completeTwo s rd rd2 _ _⟩
  · rw [x_completeTwo_fst s h, Nat.mod_eq_of_lt (slice_lt _ _ _)]
    exact loHalf_eq_mod _ _
  · rw [x_completeTwo_snd, Nat.mod_eq_of_lt (slice_lt _ _ _)]
    exact hiHalf_eq_div (mul_lt_two_pow_two_mul (s.x_lt rs1) (s.x_lt rs2))

/-- Settles O23: quotient and remainder make up the product, and equal destinations are a fault entry. -/
theorem mulxCompletes : Obligations.MulxCompletes := by
  intro rd rd2 rs1 rs2 s
  refine ⟨fun h => ?_, fun h => ?_⟩
  · obtain ⟨t, hexec, hlo, hhi, hc⟩ := exec_mulx_mod_div h rs1 rs2 s
    refine ⟨t, hexec, ?_, ?_, hc⟩
    · rw [hlo, hhi, Nat.div_add_mod']
    · rw [hlo]
      exact Nat.mod_lt _ (Nat.two_pow_pos _)
  · subst h
    exact ⟨_, execMulx_equal rd rs1 rs2 s, raised_raise s .illegalCommand _⟩

/-! ### MUL and MULX as presented words (R59, R76, R77, R93) -/

/-- Settles O27: the word decodes to MUL, and `mulCompletes` says what MUL does. -/
theorem mulRule : Obligations.MulRule := by
  intro s w rd rs1 rs2 hf hmask hrd hrs1 hrs2
  obtain ⟨-, -, hmul, -⟩ := decodeMatchesOpcodeMap w rd rd rs1 rs2
  have hd := hmul.mpr ⟨hmask, hrd, hrs1, hrs2⟩
  obtain ⟨t, hexec, hx, hc⟩ := mulCompletes rd rs1 rs2 s
  have ht := (takeCommand_legal hf hd).trans hexec
  exact ⟨t, ht, hx, hc, checkedEvent_legal hf hd rfl ht⟩

/-- A word of MULX's or DIVMOD's opcode that names one register twice as a destination is illegal (R59 clause 4). -/
theorem decode_error_of_equal_destinations {w : Word} (hop : opField w = 0x4#4 ∨ opField w = 0x5#4)
    (hd : slice w.toNat 24 4 = slice w.toNat 12 4) : ∃ e, decode w = .error e := by
  have hslice : slice w.toNat 28 4 = 4 ∨ slice w.toNat 28 4 = 5 := by
    rw [← opField_toNat]
    exact hop.imp (congrArg BitVec.toNat) (congrArg BitVec.toNat)
  exact (decode_error_iff w).mpr (.inr (.inr (.inr ⟨hslice, hd⟩)))

/-- The checked model raises ILLEGAL_COMMAND whatever the marks, since an illegal word reads no register (R94). -/
theorem checkedEvent_illegal {s : State} {w : Word} {e : DecodeError} (hf : s.faulted = false)
    (hd : decode w = .error e) : checkedEvent (.command w) s = .next (s.raise .illegalCommand w) := by
  have hread : readsUnwritten s (.command w) = false := by simp [readsUnwritten, hd]
  rw [checkedEvent, hread, takeEvent, takeCommand_illegal hf hd]
  rfl

/-- Settles O28: the word decodes to MULX, or is illegal by clause 4 of R59. -/
theorem mulxRule : Obligations.MulxRule := by
  intro s w rd rd2 rs1 rs2 hf hmask hrd hrs1 hrs2 hrd2
  refine ⟨fun h => ?_, fun h => ?_⟩
  · obtain ⟨-, -, -, hmulx, -⟩ := decodeMatchesOpcodeMap w rd rd2 rs1 rs2
    have hd := hmulx.mpr ⟨hmask, h, hrd, hrs1, hrs2, hrd2⟩
    obtain ⟨t, hexec, hlo, hhi, hc⟩ := exec_mulx_mod_div h rs1 rs2 s
    have ht := (takeCommand_legal hf hd).trans hexec
    exact ⟨t, ht, hlo, hhi, hc, checkedEvent_legal hf hd rfl ht⟩
  · obtain ⟨hop, -⟩ := (maskNoRd2_eq_iff (op := 0x4#4)).mp hmask
    obtain ⟨e, hd⟩ := decode_error_of_equal_destinations (.inl hop) (by rw [hrd, hrd2, h])
    exact ⟨_, takeCommand_illegal hf hd, raised_raise s .illegalCommand w, checkedEvent_illegal hf hd⟩

/-! ### The laws of multiplication (R84) -/

theorem mulMod_addMod (m a b d : Nat) : mulMod m a (addMod m b d) = addMod m (mulMod m a b) (mulMod m a d) := by
  simp only [mulMod, addMod, Nat.mul_mod_mod, Nat.add_mod_mod, Nat.mod_add_mod, Nat.mul_add]

/-- Settles O35: both commands compute with the product of their sources, which commutes. -/
theorem multiplyLaws : Obligations.MultiplyLaws := by
  refine ⟨fun s rd rd2 rs1 rs2 h => ?_, fun c => mulMod_addMod c.n⟩
  obtain ⟨t, ht, htx, -⟩ := mulCompletes rd rs1 rs2 s
  obtain ⟨u, hu, hux, -⟩ := mulCompletes rd rs2 rs1 s
  obtain ⟨p, hp, hplo, hphi, -⟩ := exec_mulx_mod_div h rs1 rs2 s
  obtain ⟨q, hq, hqlo, hqhi, -⟩ := exec_mulx_mod_div h rs2 rs1 s
  rw [Nat.mul_comm] at hux hqlo hqhi
  refine ⟨t, u, p, q, ht, hu, hp, hq, htx.trans hux.symm, hplo.trans hqlo.symm, hphi.trans hqhi.symm,
    htx.trans hplo.symm, ?_, fun h1 => ?_, fun h0 => ?_⟩
  · rw [hphi, hplo, Nat.div_add_mod']
  · rw [htx, h1, Nat.mul_one, Nat.mod_eq_of_lt (s.x_lt rs1)]
  · rw [htx, h0, Nat.mul_zero, Nat.zero_mod]

/-! ### The bounds of the schoolbook (R81) -/

/-- The largest product of two h-bit values is (2^h - 1)^2. -/
theorem mul_add_two_pow_le {h a b : Nat} (ha : a < 2 ^ h) (hb : b < 2 ^ h) :
    a * b + 2 ^ (h + 1) ≤ 2 ^ (2 * h) + 1 := by
  obtain ⟨m, hm⟩ := Nat.exists_eq_add_one.mpr (Nat.two_pow_pos h)
  have hprod : a * b ≤ m * m := Nat.mul_le_mul (by omega) (by omega)
  rw [Nat.two_mul, Nat.pow_succ, Nat.pow_add, hm]
  linarith

section bounds

variable (h x y : Nat)

/-- The high product and the carry of the cross terms (R80, correction C3). -/
theorem schoolSteps_z2 : (schoolSteps widening h x y).z2 =
    hiHalf h x * hiHalf h y + (schoolSteps widening h x y).c1 * 2 ^ h := rfl

theorem schoolSteps_z0 : (schoolSteps widening h x y).z0 = loHalf h x * loHalf h y := rfl

theorem schoolSteps_z2_le : (schoolSteps widening h x y).z2 + 2 ^ h ≤ 2 ^ (2 * h) + 1 := by
  have hprod := mul_add_two_pow_le (hiHalf_lt h x) (hiHalf_lt h y)
  have hcarry : (schoolSteps widening h x y).c1 * 2 ^ h ≤ 1 * 2 ^ h := Nat.mul_le_mul_right _ (carryOf_le_one _ _)
  rw [Nat.pow_succ] at hprod
  rw [schoolSteps_z2]
  omega

theorem schoolSteps_low_lt : (schoolSteps widening h x y).low < 2 ^ (2 * h) := addMod_lt _ _ _

end bounds

section product

variable {h x y : Nat} (hx : x < 2 ^ (2 * h)) (hy : y < 2 ^ (2 * h))
include hx hy

/-- The three weighted products are the whole product. -/
theorem mul_eq_schoolSteps_products : x * y = (schoolSteps widening h x y).z0 +
    (schoolSteps widening h x y).z1 * 2 ^ h + (schoolSteps widening h x y).z2 * 2 ^ (2 * h) := by
  have hcross := schoolSteps_cross h x y
  have hpow : 2 ^ (2 * h) = 2 ^ h * 2 ^ h := by rw [Nat.two_mul, Nat.pow_add]
  rw [hpow] at hcross
  calc x * y
    _ = concatHalves h (hiHalf h x) (loHalf h x) * concatHalves h (hiHalf h y) (loHalf h y) := by
      rw [concat_halves hx, concat_halves hy]
    _ = (schoolSteps widening h x y).z0 + (schoolSteps widening h x y).z1 * 2 ^ h +
        (schoolSteps widening h x y).z2 * 2 ^ (2 * h) := by
      rw [concatHalves, concatHalves, schoolSteps_z2, schoolSteps_z0, hpow]
      linear_combination 2 ^ h * hcross

/-- The high and the low word are the whole product. -/
theorem mul_eq_schoolSteps_words : x * y =
    (schoolSteps widening h x y).low + (schoolSteps widening h x y).high * 2 ^ (2 * h) := by
  rw [← school_widening hx hy, school, concatHalves, Nat.add_comm]

/-- No carry out of the high word is lost: the product has 4h bits. -/
theorem schoolSteps_high_lt : (schoolSteps widening h x y).high < 2 ^ (2 * h) := by
  have hprod : x * y < 2 ^ (2 * h) * 2 ^ (2 * h) := Nat.mul_lt_mul'' hx hy
  rw [mul_eq_schoolSteps_words hx hy] at hprod
  exact Nat.lt_of_mul_lt_mul_right (Nat.lt_of_le_of_lt (Nat.le_add_left _ _) hprod)

end product

/-- Settles O38, bound by bound. -/
theorem schoolbookBounds : Obligations.SchoolbookBounds := by
  rintro h x y st hh hx hy rfl
  have hz2 := schoolSteps_z2_le h x y
  have hpow : 1 < 2 ^ h := Nat.one_lt_two_pow (by omega)
  exact ⟨mul_add_two_pow_le (hiHalf_lt h x) (hiHalf_lt h y), hz2, by omega, schoolSteps_cross h x y,
    mul_eq_schoolSteps_products hx hy, schoolSteps_low h x y, mul_eq_schoolSteps_words hx hy,
    schoolSteps_low_lt h x y, schoolSteps_high_lt hx hy⟩

/-! ### The source's products (R79, R80, R82) -/

/-- Settles O39, by exactness of the schoolbook at every depth. -/
theorem schoolbookProductIsExact : Obligations.SchoolbookProductIsExact := exactOn_xmul

/-- Settles O40, by `mulMod_halves` at every depth. -/
theorem truncatedProductIsModular : Obligations.TruncatedProductIsModular := fun w l _ _ _ => tmul_eq_mulMod w l

end Sys2Proof.Machine
end

section
/-! PROOFS. DIVMOD (42_divmod.md): the command, the presented word, and the identity its two results satisfy. -/

namespace Sys2Proof.Machine

/-! ### DIVMOD (R85, R86, R87) -/

section command

variable {s : State} {rd rd2 rs2 : RegNum} (h : rd ≠ rd2) (rs1 : RegNum)
include h

/-- DIVMOD leaves quotient and remainder of its native sources in its destinations; both fit a register (R85, R86). -/
theorem exec_divmod_completes (h0 : s.nativeSource rs2 ≠ 0) : ∃ t, exec (.divmod rd rd2 rs1 rs2) s = .next t ∧
    t.x rd = s.nativeSource rs1 / s.nativeSource rs2 ∧ t.x rd2 = s.nativeSource rs1 % s.nativeSource rs2 ∧
    Completed [rd, rd2] s t := by
  have hlt := s.nativeSource_lt rs1
  refine ⟨_, execDivmod_nonzero h rs1 h0, ?_, ?_, completed_completeTwo s rd rd2 _ _⟩
  · rw [x_completeTwo_fst s h, s.native_fits (Nat.div_lt_of_lt hlt)]
  · rw [x_completeTwo_snd, s.native_fits (Nat.mod_lt_of_lt hlt)]

theorem exec_divmod_raises (h0 : s.nativeSource rs2 = 0) : ∃ t, exec (.divmod rd rd2 rs1 rs2) s = .next t ∧
    Raised 2 (encode (.divmod rd rd2 rs1 rs2)) s t :=
  ⟨_, execDivmod_zero h rs1 h0, raised_raise s .divideByZero _⟩

end command

/-- Settles O24, in the three cases of `execDivmod`. -/
theorem divmodCompletes : Obligations.DivmodCompletes := by
  intro rd rd2 rs1 rs2 s
  simp only [← State.nativeSource_eq_mod]
  refine ⟨fun h => exec_divmod_completes h rs1, fun h => exec_divmod_raises h rs1, fun h => ?_⟩
  subst h
  exact ⟨_, execDivmod_equal rd rs1 rs2 s, raised_raise s .illegalCommand _⟩

/-! ### DIVMOD as a presented word (R59, R85, R87, R93) -/

/-- The status registers of a faulted block stand still under every input but reset (R96, R97). -/
theorem sameStatus_of_faulted {s t : State} {e : Event} (hf : s.faulted = true) (he : e ≠ .reset)
    (h : takeEvent e s = .next t) : SameStatus s t := by
  obtain ⟨-, hwriter, -⟩ := registersAndStatusChangeOnlyByTheirWriters s t e h
  by_contra hne
  obtain hreset | ⟨w, -, hnf⟩ := hwriter hne
  · exact he hreset
  · exact Bool.noConfusion (hf.symm.trans hnf)

/-- Settles O29: the word decodes to DIVMOD, whose divisor is 0 or not, or it is illegal by clause 4 of R59. -/
theorem divmodRule : Obligations.DivmodRule := by
  intro s w rd rd2 rs1 rs2 hf hmask hrd hrs1 hrs2 hrd2
  refine ⟨fun h => ?_, fun h => ?_⟩
  · obtain ⟨-, -, -, -, hdivmod⟩ := decodeMatchesOpcodeMap w rd rd2 rs1 rs2
    have hd := hdivmod.mpr ⟨hmask, h, hrd, hrs1, hrs2, hrd2⟩
    by_cases h0 : s.nativeSource rs2 = 0
    · obtain ⟨t, hexec, hraised⟩ := exec_divmod_raises h rs1 h0
      rw [encode_of_decode hd] at hraised
      have ⟨hfaulted, _⟩ := hraised
      have ht := (takeCommand_legal hf hd).trans hexec
      exact ⟨t, ht, fun hne => absurd h0 hne, fun _ => ⟨hraised, fun _ _ => sameStatus_of_faulted hfaulted⟩,
        checkedEvent_legal hf hd rfl ht⟩
    · obtain ⟨t, hexec, hq, hr, hc⟩ := exec_divmod_completes h rs1 h0
      have ht := (takeCommand_legal hf hd).trans hexec
      exact ⟨t, ht, fun _ => ⟨hc, hq, hr⟩, fun hz => absurd hz h0, checkedEvent_legal hf hd rfl ht⟩
  · obtain ⟨hop, -⟩ := (maskNoRd2_eq_iff (op := 0x5#4)).mp hmask
    obtain ⟨e, hd⟩ := decode_error_of_equal_destinations (.inr hop) (by rw [hrd, hrd2, h])
    exact ⟨_, takeCommand_illegal hf hd, raised_raise s .illegalCommand w, checkedEvent_illegal hf hd⟩

/-! ### The division identity (R88) -/

/-- A value of `lo` bits has no bit from `lo` up (R13). -/
theorem slice_eq_zero_of_lt {v lo : Nat} (h : v < 2 ^ lo) (len : Nat) : slice v lo len = 0 := by
  rw [slice, Nat.div_eq_of_lt h, Nat.zero_mod]

/-- Settles O30: the dividend is a native value, and neither result exceeds it. -/
theorem divisionIdentity : Obligations.DivisionIdentity := by
  intro rd rd2 rs1 rs2 s t a b h ha hb hb0 ht
  rw [← State.nativeSource_eq_mod] at ha hb
  obtain ⟨u, hu, hq, hr, -⟩ := exec_divmod_completes h rs1 (hb ▸ hb0)
  obtain rfl : u = t := Host.Outcome.next.inj (hu.symm.trans ht)
  rw [← ha, ← hb] at hq hr
  have ha_lt : a < 2 ^ s.cfg.divW.bits := ha ▸ s.nativeSource_lt rs1
  have hq_lt : u.x rd < 2 ^ s.cfg.divW.bits := hq ▸ Nat.div_lt_of_lt ha_lt
  have hr_lt : u.x rd2 < 2 ^ s.cfg.divW.bits := hr ▸ Nat.mod_lt_of_lt ha_lt
  refine ⟨?_, ?_, hq_lt, hr_lt, slice_eq_zero_of_lt hq_lt _, slice_eq_zero_of_lt hr_lt _⟩
  · rw [hq, hr, Nat.div_add_mod']
  · rw [hr]
    exact Nat.mod_lt a (Nat.pos_of_ne_zero hb0)

end Sys2Proof.Machine
end

section
/-! PROOFS. Exceptions (60_exceptions.md): which presented words fault and with what record, the order of the faults, the
faulted block, and the spec's model beside the hardware. -/

namespace Sys2Proof.Machine

/-! ### Which words fault (R89 to R92) -/

section legal

variable {s : State} {w : Word} (hf : s.faulted = false)
include hf

/-- The word of a DIVMOD by zero is a fault entry that records that word (R87, R91). -/
theorem takeCommand_divideByZero {rd rd2 rs1 rs2 : RegNum} (hd : decode w = .ok (.divmod rd rd2 rs1 rs2))
    (h0 : s.nativeSource rs2 = 0) : takeCommand w s = .next (s.raise .divideByZero w) := by
  have hne : rd ≠ rd2 := bne_iff_ne.mp (wellFormed_of_decode hd)
  rw [takeCommand_legal hf hd, ← encode_of_decode hd]
  exact execDivmod_zero hne rs1 h0

/-- A legal word completes unless it is a DIVMOD by zero, whatever its operands (R62, R92). -/
theorem takeCommand_completes {i : Instr} (hd : decode w = .ok i)
    (hdiv : ∀ rd rd2 rs1 rs2, i = .divmod rd rd2 rs1 rs2 → s.nativeSource rs2 ≠ 0) :
    ∃ t, takeCommand w s = .next t ∧ Completed (destinations i) s t := by
  obtain ⟨t, ht, hout⟩ := takeCommand_answers w s
  refine ⟨t, ht, ?_⟩
  cases hout with
  | discarded hfaulted => exact Bool.noConfusion (hfaulted.symm.trans hf)
  | illegal _ e he => cases hd.symm.trans he
  | completes _ j hj hcompleted =>
    obtain rfl : i = j := Except.ok.inj (hd.symm.trans hj)
    exact hcompleted
  | dividesByZero _ rd rd2 rs1 rs2 hj hzero =>
    exact absurd hzero (hdiv rd rd2 rs1 rs2 (Except.ok.inj (hd.symm.trans hj)))

end legal

section outcome

variable {w : Word} {s t : State}

/-- Only an illegal word and a DIVMOD by zero take the block into the faulted state (R89). -/
theorem CommandOutcome.exception_of_faulted (h : CommandOutcome w s t) (hf : s.faulted = false)
    (ht : t.faulted = true) : (∃ e, decode w = .error e) ∨
      ∃ rd rd2 rs1 rs2, decode w = .ok (.divmod rd rd2 rs1 rs2) ∧ s.nativeSource rs2 = 0 := by
  cases h with
  | discarded hfaulted => exact Bool.noConfusion (hfaulted.symm.trans hf)
  | illegal _ e he => exact .inl ⟨e, he⟩
  | completes _ _ _ hcompleted =>
    obtain ⟨-, -, -, hfaulted, -⟩ := hcompleted
    exact Bool.noConfusion (ht.symm.trans (hfaulted.trans hf))
  | dividesByZero _ rd rd2 rs1 rs2 hd hzero => exact .inr ⟨rd, rd2, rs1, rs2, hd, hzero⟩

/-- A word that does not leave the block faulted records nothing (R95). -/
theorem CommandOutcome.record_eq_of_not_faulted (h : CommandOutcome w s t) (ht : t.faulted = false) :
    t.cause = s.cause ∧ t.faultCi = s.faultCi ∧ t.faultCmd = s.faultCmd := by
  cases h with
  | discarded _ hsame =>
    subst hsame
    exact ⟨rfl, rfl, rfl⟩
  | completes _ _ _ hcompleted =>
    obtain ⟨-, -, -, -, hcause, hfaultCi, hfaultCmd, -⟩ := hcompleted
    exact ⟨hcause, hfaultCi, hfaultCmd⟩
  | illegal _ _ _ hraised | dividesByZero _ _ _ _ _ _ _ hraised =>
    obtain ⟨hfaulted, -⟩ := hraised
    exact Bool.noConfusion (hfaulted.symm.trans ht)

end outcome

/-- Settles O43: the two fault entries, and what a presented word may do besides. -/
theorem faultsExactlyWhenTheSpecSays : Obligations.FaultsExactlyWhenTheSpecSays := by
  intro s t w hf ht
  have hout := takeCommand_outcome ht
  simp only [← State.nativeSource_eq_mod]
  refine ⟨?_, fun rd rd2 rs1 rs2 hd h0 => ?_, hout.exception_of_faulted hf, hout.record_eq_of_not_faulted⟩
  · rintro ⟨e, hd⟩
    obtain rfl := Host.Outcome.next.inj ((takeCommand_illegal hf hd).symm.trans ht)
    exact ⟨raised_raise s .illegalCommand w, rfl⟩
  · obtain rfl := Host.Outcome.next.inj ((takeCommand_divideByZero hf hd h0).symm.trans ht)
    obtain ⟨-, -, -, -, hdivmod⟩ := decodeMatchesOpcodeMap w rd rd2 rs1 rs2
    obtain ⟨-, -, -, -, hrs2, -⟩ := hdivmod.mp hd
    exact ⟨raised_raise s .divideByZero w, rfl, hrs2⟩

/-- Settles O44: the four commands complete, and a completed command leaves the latch alone. -/
theorem overflowIsNeverAFault : Obligations.OverflowIsNeverAFault := by
  intro s t w i hf hd hi ht
  obtain ⟨u, hu, hci, -, -, hfaulted, hcause, hfaultCi, hfaultCmd, -⟩ :=
    takeCommand_completes hf hd fun rd rd2 rs1 rs2 h => absurd h (hi rd rd2 rs1 rs2)
  obtain rfl : t = u := Host.Outcome.next.inj (ht.symm.trans hu)
  exact ⟨hfaulted.trans hf, hcause, hfaultCi, hfaultCmd, hci⟩

/-! ### The order of the faults in the spec's model (R94) -/

/-- A discarded word reads no register. -/
theorem checkedEvent_faulted {s : State} (hf : s.faulted = true) (w : Word) :
    checkedEvent (.command w) s = .next s := by
  have hread : readsUnwritten s (.command w) = false := by simp [readsUnwritten, hf]
  rw [checkedEvent, hread, takeEvent, takeCommand_faulted hf]
  rfl

section sources

variable {s : State} {w : Word} {i : Instr} (hf : s.faulted = false) (hd : decode w = .ok i)
include hf hd

theorem readsUnwritten_command_iff :
    readsUnwritten s (.command w) = true ↔ ∃ r ∈ sources i, s.mark r = false := by
  simp [readsUnwritten, hf, hd]

theorem checkedEvent_unwritten (h : ∃ r ∈ sources i, s.mark r = false) :
    checkedEvent (.command w) s = .fault .unwrittenRead :=
  if_pos ((readsUnwritten_command_iff hf hd).mpr h)

/-- Where every source has its mark, the spec's model does what the hardware does (R93). -/
theorem checkedEvent_written (h : ∀ r ∈ sources i, s.mark r = true) :
    checkedEvent (.command w) s = takeCommand w s := by
  refine if_neg fun hread => ?_
  obtain ⟨r, hr, hmark⟩ := (readsUnwritten_command_iff hf hd).mp hread
  exact Bool.noConfusion (hmark.symm.trans (h r hr))

end sources

/-- Settles O45, case by case in the order of R94. -/
theorem faultPriority : Obligations.FaultPriority := by
  intro s w
  simp only [← State.nativeSource_eq_mod]
  refine ⟨fun hf => checkedEvent_faulted hf w, ?_, fun hf i hd => ⟨checkedEvent_unwritten hf hd, fun hmarks => ?_⟩⟩
  · rintro hf ⟨e, hd⟩
    exact ⟨_, checkedEvent_illegal hf hd, raised_raise s .illegalCommand w⟩
  · rw [checkedEvent_written hf hd hmarks]
    refine ⟨fun rd rd2 rs1 rs2 hi h0 => ?_, takeCommand_completes hf hd⟩
    exact ⟨_, takeCommand_divideByZero hf (hi ▸ hd) h0, raised_raise s .divideByZero w⟩

/-! ### The faulted block (R96, R97) -/

/-- Settles O46: the command port discards the word, and the host port does not look at the latch. -/
theorem faultedBlockDiscardsCommands : Obligations.FaultedBlockDiscardsCommands := fun s hf =>
  ⟨takeCommand_faulted hf, fun r _ hv => ⟨_, rfl, s.x_hostWriteReg_self r hv, s.mark_hostWriteReg_self r _⟩,
    fun r => ⟨_, rfl, s.hostReadReg_returned r⟩, fun a => ⟨_, rfl, s.hostReadCsr_returned a⟩⟩

/-- The hardware never stops (R93, R95). -/
theorem takeEvent_answers (e : Event) (s : State) : ∃ t, takeEvent e s = .next t := by
  cases e with
  | command w =>
    obtain ⟨t, ht, -⟩ := takeCommand_answers w s
    exact ⟨t, ht⟩
  | hostWriteReg | hostReadReg | hostReadCsr | reset => exact ⟨_, rfl⟩

theorem SameStatus.trans {s t u : State} (h : SameStatus s t) (h' : SameStatus t u) : SameStatus s u := by
  obtain ⟨hci, hfaulted, hcause, hfaultCi, hfaultCmd⟩ := h
  obtain ⟨hci', hfaulted', hcause', hfaultCi', hfaultCmd'⟩ := h'
  exact ⟨hci'.trans hci, hfaulted'.trans hfaulted, hcause'.trans hcause, hfaultCi'.trans hfaultCi,
    hfaultCmd'.trans hfaultCmd⟩

theorem SameStatus.faulted_of_faulted {s t : State} (h : SameStatus s t) (hf : s.faulted = true) :
    t.faulted = true := by
  obtain ⟨-, hfaulted, -⟩ := h
  exact hfaulted.trans hf

/-- A run without a reset leaves the status registers of a faulted block standing still, input by input. -/
theorem run_sameStatus_of_faulted (es : List Event) {s : State} (hf : s.faulted = true) (hes : Event.reset ∉ es) :
    ∃ t, run es s = .next t ∧ SameStatus s t := by
  induction es generalizing s with
  | nil => exact ⟨s, rfl, .refl s⟩
  | cons e es ih =>
    obtain ⟨he, hes⟩ := List.ne_and_not_mem_of_not_mem_cons hes
    obtain ⟨t, ht⟩ := takeEvent_answers e s
    have hst := sameStatus_of_faulted hf he.symm ht
    obtain ⟨u, hu, htu⟩ := ih (hst.faulted_of_faulted hf) hes
    exact ⟨u, by simpa only [run, ht] using hu, hst.trans htu⟩

/-- Settles O47, from `run_sameStatus_of_faulted`. -/
theorem firstFaultStaysUntilReset : Obligations.FirstFaultStaysUntilReset := by
  intro es s hf hes
  obtain ⟨t, ht, hst⟩ := run_sameStatus_of_faulted es hf hes
  exact ⟨t, ht, hst.faulted_of_faulted hf, hst⟩

/-! ### The spec's model beside the hardware (R93) -/

/-- The spec's model stops at UNWRITTEN_READ, or goes on as the hardware does. -/
theorem checkedEvent_cases (e : Event) (s : State) : checkedEvent e s = .fault .unwrittenRead ∨
    ∃ t, checkedEvent e s = .next t ∧ takeEvent e s = .next t := by
  obtain ⟨t, ht⟩ := takeEvent_answers e s
  unfold checkedEvent
  split
  · exact .inl rfl
  · exact .inr ⟨t, ht, ht⟩

/-- Settles O50, by induction over the inputs. -/
theorem checkedRunsAreHardwareRuns : Obligations.CheckedRunsAreHardwareRuns := by
  intro es
  induction es with
  | nil => exact fun s => ⟨fun _ ht => ht, .inl ⟨s, rfl⟩⟩
  | cons e es ih =>
    intro s
    obtain hstop | ⟨u, hchecked, htake⟩ := checkedEvent_cases e s
    · simp [checkedRun, hstop]
    · simpa only [checkedRun, run, hchecked, htake] using ih u

end Sys2Proof.Machine
end

section
/-! PROOFS. Reset, the end of a run, and steps (70_reset_and_hazards.md): the reset input as the way out of a fault, the one
input a step takes, and the command index over a whole run. -/

namespace Sys2Proof.Machine

/-! ### The reset input (R97, R107) -/

/-- Reset is the only way out of a fault: a block that is not faulted after another input was not before it (R97). -/
theorem not_faulted_before {s t : State} {e : Event} (he : e ≠ .reset) (h : takeEvent e s = .next t)
    (ht : t.faulted = false) : s.faulted = false :=
  Bool.eq_false_of_not_eq_true fun hf =>
    Bool.noConfusion (ht.symm.trans ((sameStatus_of_faulted hf he h).faulted_of_faulted hf))

/-- Settles O8: `takeReset` field by field, and `not_faulted_before` for every other input. -/
theorem resetInputClearsEverything : Obligations.ResetInputClearsEverything := by
  refine ⟨fun s => ?_, fun s t e hf h ht => ?_⟩
  · exact ⟨s.takeReset, rfl, s.takeReset_mark, s.takeReset_ci, s.takeReset_faulted, s.takeReset_cause,
      s.takeReset_faultCi, s.takeReset_faultCmd, s.takeReset_faulted, s.takeReset_cfg,
      congrArg configWord s.takeReset_cfg, s.takeReset_inputs, s.takeReset_returned⟩
  · by_contra he
    exact Bool.noConfusion (hf.symm.trans (not_faulted_before he h ht))

/-! ### One step takes one input (R49, R106, R111) -/

/-- A presented word changes registers and status registers alone, and returns nothing to the host (R62, R95, R96). -/
theorem CommandOutcome.sameSurroundings {w : Word} {s t : State} (h : CommandOutcome w s t) : SameSurroundings s t := by
  cases h with
  | discarded _ hsame =>
    subst hsame
    exact ⟨rfl, rfl, rfl, rfl⟩
  | completes _ _ _ hcompleted =>
    obtain ⟨-, -, -, -, -, -, -, hsurroundings⟩ := hcompleted
    exact hsurroundings
  | illegal _ _ _ hraised | dividesByZero _ _ _ _ _ _ _ hraised =>
    obtain ⟨-, -, -, -, -, -, hsurroundings⟩ := hraised
    exact hsurroundings

/-- Every input is answered with the inputs to come and the parameters kept and at most one value returned. -/
theorem takeEvent_keeps (e : Event) (s : State) : ∃ t, takeEvent e s = .next t ∧ t.inputs = s.inputs ∧
    t.cfg = s.cfg ∧ (t.returned = s.returned ∨ ∃ v, t.returned = v :: s.returned) := by
  cases e with
  | command w =>
    obtain ⟨t, ht, hout⟩ := takeCommand_answers w s
    obtain ⟨hcfg, hinputs, hreturned, -⟩ := hout.sameSurroundings
    exact ⟨t, ht, hinputs, hcfg, .inl hreturned⟩
  | hostWriteReg r v =>
    exact ⟨_, rfl, s.hostWriteReg_inputs r v, s.hostWriteReg_cfg r v, .inl (s.hostWriteReg_returned r v)⟩
  | hostReadReg r => exact ⟨_, rfl, s.hostReadReg_inputs r, s.hostReadReg_cfg r, .inr ⟨_, s.hostReadReg_returned r⟩⟩
  | hostReadCsr a => exact ⟨_, rfl, s.hostReadCsr_inputs a, s.hostReadCsr_cfg a, .inr ⟨_, s.hostReadCsr_returned a⟩⟩
  | reset => exact ⟨_, rfl, s.takeReset_inputs, s.takeReset_cfg, .inl s.takeReset_returned⟩

/-- Settles O19: the block is idle, or takes the input in front, which keeps the rest of the list. -/
theorem stepAlwaysAnswersAndTakesOneInput : Obligations.StepAlwaysAnswersAndTakesOneInput := by
  intro s
  cases hin : s.inputs with
  | nil => exact ⟨s, step_idle hin, hin, rfl, fun _ => rfl, .inl rfl⟩
  | cons e es =>
    obtain ⟨t, ht, hinputs, hcfg, hreturned⟩ := takeEvent_keeps e (s.withInputs es)
    exact ⟨t, (step_cons hin).trans ht, hinputs, hcfg, fun hnil => absurd hnil (List.cons_ne_nil e es), hreturned⟩

/-! ### The command index over a run (R23, R110) -/

/-- CI is `k` modulo 2^32 unless the block is faulted. A fault stops CI, so a count of the words presented holds up to it,
and again from the next reset on. -/
def CiCounts (k : Nat) (s : State) : Prop := s.faulted = false → s.ci = BitVec.ofNat 32 k

theorem commandsSinceReset_cons (k : Nat) (e : Event) (es : List Event) :
    commandsSinceReset k (e :: es) = commandsSinceReset (commandsSinceReset k [e]) es := by
  cases e <;> rfl

theorem takeEvent_ciCounts {k : Nat} {s t : State} {e : Event} (hs : CiCounts k s) (h : takeEvent e s = .next t) :
    CiCounts (commandsSinceReset k [e]) t := by
  intro ht
  cases e with
  | command w =>
    obtain ⟨-, hci⟩ | ⟨hf, -⟩ := (takeCommand_outcome h).ci
    · rw [hci, hs (not_faulted_before (e := .command w) nofun h ht)]
      exact (BitVec.ofNat_add k 1).symm
    · exact Bool.noConfusion (hf.symm.trans ht)
  | hostWriteReg | hostReadReg | hostReadCsr =>
    obtain rfl := Host.Outcome.next.inj h
    exact hs ht
  | reset =>
    obtain rfl := Host.Outcome.next.inj h
    exact s.takeReset_ci

theorem run_ciCounts (es : List Event) {k : Nat} {s t : State} (hs : CiCounts k s) (h : run es s = .next t) :
    CiCounts (commandsSinceReset k es) t := by
  induction es generalizing k s with
  | nil =>
    obtain rfl := Host.Outcome.next.inj h
    exact hs
  | cons e es ih =>
    obtain ⟨u, hu⟩ := takeEvent_answers e s
    rw [commandsSinceReset_cons]
    exact ih (takeEvent_ciCounts hs hu) (by simpa only [run, hu] using h)

/-- Settles O52, from `run_ciCounts`; a checked run is a run of the hardware. -/
theorem commandIndexCountsTheRun : Obligations.CommandIndexCountsTheRun := by
  refine ⟨fun es s t k hk h => run_ciCounts es (fun _ => hk) h, fun c es t h ht => ⟨h, ht, ?_⟩⟩
  obtain ⟨hrun, -⟩ := checkedRunsAreHardwareRuns es (State.resetFor c)
  exact run_ciCounts es (fun _ => State.resetFor_ci c) (hrun t h) ht

end Sys2Proof.Machine
end

section
/-! PROOFS. Known words of format R4 (95_test_vectors.md section 6): a word of each command and the all-zero word. -/

namespace Sys2Proof

/-- Settles O12: five of the words are the encodings of their commands, and the decoder refuses OP 0. -/
theorem knownWordsDecode : Obligations.KnownWordsDecode := by
  refine ⟨?add, ?sub, ?mul, ?mulx, ?divmod, ?zero⟩
  case zero => decide
  all_goals exact decode_eq_ok_iff.mpr ⟨rfl, by decide⟩

end Sys2Proof
end
